-- ==== Sys2Proof/Word.lean ====
section
/-! DEFINITION. Bytes, byte strings and the 32-bit word (spec/00_scope.md R7). -/

namespace Sys2Proof

/-- A byte: an integer 0 to 255, bit 0 the least significant (R7). -/
abbrev Byte := BitVec 8

/-- A byte string: a finite sequence of bytes, indices from 0 (R7). -/
abbrev Bytes := List Byte

/-- A command or response frame: a finite byte string delivered whole (spec/30_encoding.md R70). -/
abbrev Frame := Bytes

/-- The width of the register CTR (R6) and of SHA-1's words. -/
abbrev Word32 := BitVec 32

end Sys2Proof
end

