-- ==== Sys2Proof/Config.lean ====
section
/-! DEFINITION. What is fixed when a unit is built: the constants of spec/00_scope.md R5, the parameters of R6, the
role, and the primitive functions the unit is delegated to (R9). -/

namespace Sys2Proof

/-- `ROLE` (R6, D18): fixed when the unit is built. -/
inductive Role where
  | decryptor
  | encryptor
  deriving DecidableEq, Repr

/-- Which pair of primitive functions AES_ENC and PBKDF2_HMAC_SHA1 the unit was built with (R6, R9, D15).
`standard` is the spec's default (93 G2 and G3; PRESUMED bodies, log 7); `delegated library` is a library about which
nothing is known but what R9 says, so that a statement about every unit holds for every choice of primitives. -/
inductive Primitives where
  | standard
  | delegated (library : Nat)
  deriving DecidableEq, Repr

namespace Config

/-- `BLOCK` (R5): the cipher's block size in bytes. -/
def block : Nat := 16

/-- `VERIFIER_LEN` (R5). -/
def verifierLen : Nat := 2

/-- `ITER` (R5): PBKDF2 iterations, not configurable. -/
def iter : Nat := 1000

/-- `GP_FLAG` (R5, R112). -/
def gpFlag : Nat := 0x0001

/-- `TRAILER_LEN` (R5): the authentication code the archive format reserves after the payload, neither written nor checked
by the unit. -/
def trailerLen : Nat := 10

/-- `PW_MAX` (R6, D7): the longest password a frame can carry. -/
def pwMax : Nat := 65535

/-- `CHUNK_MAX` (R6, D2): the longest operand a Format V frame can carry. -/
def chunkMax : Nat := 4294967295

/-- The largest value of the counter field and of CTR, `2^32 - 1` (R24, R146). -/
def ctrMax : Nat := 4294967295

/-- `AES_ENC` of an unknown library (R9): total, deterministic, and its result is a 16-byte block. No body. -/
opaque aesLibrary (library : Nat) (key blk : Bytes) : Vector Byte 16

/-- `PBKDF2_HMAC_SHA1` of an unknown library (R9): total, deterministic, and its result has `dkLen` bytes. No body. -/
opaque pbkdf2Library (library : Nat) (password salt : Bytes) (c dkLen : Nat) : Vector Byte dkLen

end Config

end Sys2Proof
end

