-- ==== Sys2Proof/Syntax.lean ====
section
/-! DEFINITION. The commands of the unit: one constructor per row of spec/opcode_table.json (spec/30_encoding.md R75,
R80). The opcode and format names stand beside them. -/

namespace Sys2Proof

/-- The eight commands with their operands (R80). -/
inductive Instr where
  /-- `NEW s, P` (R110): the strength code and the password, in the frame's order (R72, R80). -/
  | new (strength : Byte) (password : Bytes)
  /-- `HDRSZ` (R111). -/
  | hdrsz
  /-- `GPFLAG` (R112). -/
  | gpflag
  /-- `RESET H` (R120): the encryption header, operand space HDR. -/
  | reset (hdr : Bytes)
  /-- `DECRYPT C` (R140): the chunk, operand space CIN. -/
  | decrypt (cin : Bytes)
  /-- `RDAUTH` (R129). -/
  | rdauth
  /-- `ENC_RESET S` (R161): the salt, operand space SALT. -/
  | encReset (salt : Bytes)
  /-- `ENCRYPT M` (R162): the chunk, operand space CIN. -/
  | encrypt (cin : Bytes)
  deriving DecidableEq, Repr

/-- The opcodes of R75, by mnemonic. -/
inductive Opcode where
  | new | hdrsz | gpflag | reset | decrypt | rdauth | encReset | encrypt
  deriving DecidableEq, Repr

/-- The three command formats (R71, R72, R73). -/
inductive Format where
  /-- Format N: no operand, length 1 (R71). -/
  | n
  /-- Format C: configuration, length 4 + pwlen (R72). -/
  | c
  /-- Format V: one variable-length data operand, length 5 + dlen (R73). -/
  | v
  deriving DecidableEq, Repr

/-- The opcode of a command. -/
def Instr.opcode : Instr → Opcode
  | .new _ _ => .new
  | .hdrsz => .hdrsz
  | .gpflag => .gpflag
  | .reset _ => .reset
  | .decrypt _ => .decrypt
  | .rdauth => .rdauth
  | .encReset _ => .encReset
  | .encrypt _ => .encrypt

end Sys2Proof
end

