-- ==== Sys2Proof/WellFormed.lean ====
section
/-! DEFINITION. Which commands a frame can carry: the length fields' bounds PW_MAX and CHUNK_MAX (spec/00_scope.md R6;
spec/30_encoding.md R72, R73). Operands of any content are well-formed; a header or salt of the wrong length is a failure
of the command (R122, R161), not of its form. -/

namespace Sys2Proof

/-- The operand fits the length field of the command's format. -/
def Instr.wellFormed : Instr → Bool
  | .new _ password => decide (password.length ≤ Config.pwMax)
  | .hdrsz => true
  | .gpflag => true
  | .reset hdr => decide (hdr.length ≤ Config.chunkMax)
  | .decrypt cin => decide (cin.length ≤ Config.chunkMax)
  | .rdauth => true
  | .encReset salt => decide (salt.length ≤ Config.chunkMax)
  | .encrypt cin => decide (cin.length ≤ Config.chunkMax)

end Sys2Proof
end

