-- ==== Sys2Proof/Decode.lean ====
section
/-! DEFINITION. The frame decoder, total on any bytes and rejecting by name (spec/30_encoding.md R70 to R79, R82), the
encoder written from the same tables, and the byte-order helpers both use (spec/00_scope.md R7). -/

namespace Sys2Proof

/-- `LE_k(v)` (R7): the `k`-byte little-endian encoding, least significant byte first. -/
def le : Nat → Nat → Bytes
  | 0, _ => []
  | k + 1, v => BitVec.ofNat 8 v :: le k (v / 256)

/-- The unsigned integer a little-endian field holds (R76); a missing byte counts as zero. -/
def leNat : Bytes → Nat
  | [] => 0
  | b :: rest => b.toNat + 256 * leNat rest

/-- `BE_k(v)` (R7): most significant byte first. -/
def be (k v : Nat) : Bytes := (le k v).reverse

/-- The opcode byte of R75. -/
def Opcode.byte : Opcode → Byte
  | .new => 0x01
  | .hdrsz => 0x02
  | .gpflag => 0x03
  | .reset => 0x04
  | .decrypt => 0x05
  | .rdauth => 0x06
  | .encReset => 0x14
  | .encrypt => 0x15

/-- The row of R75 whose opcode is this byte; every other byte is reserved (R77). -/
def opcodeOfByte (b : Byte) : Option Opcode :=
  match b.toNat with
  | 0x01 => some .new
  | 0x02 => some .hdrsz
  | 0x03 => some .gpflag
  | 0x04 => some .reset
  | 0x05 => some .decrypt
  | 0x06 => some .rdauth
  | 0x14 => some .encReset
  | 0x15 => some .encrypt
  | _ => none

/-- The format column of R75. -/
def Opcode.format : Opcode → Format
  | .new => .c
  | .hdrsz => .n
  | .gpflag => .n
  | .reset => .v
  | .decrypt => .v
  | .rdauth => .n
  | .encReset => .v
  | .encrypt => .v

/-- The roles column of R75: whether the opcode is legal for a unit of this role (R77). -/
def Opcode.legalFor (role : Role) : Opcode → Bool
  | .new => true
  | .hdrsz => true
  | .gpflag => true
  | .reset => decide (role = .decryptor)
  | .decrypt => decide (role = .decryptor)
  | .rdauth => true
  | .encReset => decide (role = .encryptor)
  | .encrypt => decide (role = .encryptor)

/-- The length a frame must have, told from its format and the format's length field (R71, R72, R73, R79). Of a frame too
short to hold the field the result is still greater than the frame's own length. -/
def expectedLength (fmt : Format) (f : Frame) : Nat :=
  match fmt with
  | .n => 1
  | .c => 4 + leNat ((f.drop 2).take 2)
  | .v => 5 + leNat ((f.drop 1).take 4)

/-- The command a well-formed frame carries: operands taken as they stand (R76). -/
def assemble (op : Opcode) (f : Frame) : Instr :=
  match op with
  | .new => .new (f.getD 1 0) (f.drop 4)
  | .hdrsz => .hdrsz
  | .gpflag => .gpflag
  | .reset => .reset (f.drop 5)
  | .decrypt => .decrypt (f.drop 5)
  | .rdauth => .rdauth
  | .encReset => .encReset (f.drop 5)
  | .encrypt => .encrypt (f.drop 5)

/-- Why the decoder rejects a frame. All are answered `IllegalCommand` (R82). -/
inductive DecodeError where
  /-- Check (1) of R82: the frame is empty (R78). -/
  | emptyFrame
  /-- Check (2) of R82: byte 0 is in no row of R75 (R77). -/
  | reservedOpcode (opc : Byte)
  /-- Check (4) of R82: the frame's length does not agree with its format (R78). -/
  | malformed (op : Opcode)
  deriving DecidableEq, Repr

/-- Checks (1), (2) and (4) of R82 and the operand assembly of R76. Check (3), the role, is made by the command's meaning
(log 11). -/
def decode (f : Frame) : Except DecodeError Instr :=
  match f with
  | [] => .error .emptyFrame
  | b :: rest =>
    match opcodeOfByte b with
    | none => .error (.reservedOpcode b)
    | some op =>
      if (b :: rest).length = expectedLength op.format (b :: rest) then .ok (assemble op (b :: rest))
      else .error (.malformed op)

/-- The frame of a command (R71, R72, R73). -/
def encode : Instr → Frame
  | .new strength password => 0x01 :: strength :: (le 2 password.length ++ password)
  | .hdrsz => [0x02]
  | .gpflag => [0x03]
  | .reset hdr => 0x04 :: (le 4 hdr.length ++ hdr)
  | .decrypt cin => 0x05 :: (le 4 cin.length ++ cin)
  | .rdauth => [0x06]
  | .encReset salt => 0x14 :: (le 4 salt.length ++ salt)
  | .encrypt cin => 0x15 :: (le 4 cin.length ++ cin)

/-- The frame whose bytes are `w`, byte 0 the least significant, with zero bytes added up to the length the format asks
for: an operand the opcode table gives no bits is made of zeros. -/
def tableFrame (nbits w : Nat) : Frame :=
  let given := le ((nbits + 7) / 8) w
  match given with
  | [] => []
  | b :: _ =>
    match opcodeOfByte b with
    | none => given
    | some op => given ++ List.replicate (expectedLength op.format given - given.length) 0

/-- What the decoder reads from an instruction whose bits are `w`, numbered as spec/opcode_table.json numbers them. -/
def decodeTableWord (nbits w : Nat) : Option Instr :=
  match decode (tableFrame nbits w) with
  | .ok i => some i
  | .error _ => none

end Sys2Proof
end

