-- ==== Sys2Proof/Machine/Operands.lean ====
section
/-! DEFINITION. Operand spaces as byte strings (spec/20_memory.md R50, R51), byte-wise exclusive-or (spec/00_scope.md R7),
and the Parameter Table with its derived lengths (spec/40_parameter_table.md). -/

namespace Sys2Proof.Machine

/-- `MemRead(S:off, n)`: the slice `S[off ..< off+n]` (R8, R51). -/
def memRead (space : Bytes) (off n : Nat) : Bytes := (space.drop off).take n

/-- `MemWrite(S:off, n, v)` into an output space (R8, R51): sets the bytes `off` to `off + v.length - 1`. -/
def memWrite (space : Bytes) (off : Nat) (v : Bytes) : Bytes :=
  space.take off ++ v ++ space.drop (off + v.length)

/-- `x XOR y` on byte strings of equal length (R7). -/
def xorBytes (x y : Bytes) : Bytes := List.zipWith (· ^^^ ·) x y

/-- `k` consecutive pieces of `n` bytes each. -/
def pieces (n : Nat) : Nat → Bytes → List Bytes
  | 0, _ => []
  | k + 1, m => m.take n :: pieces n k (m.drop n)

/-- One row of the Parameter Table (R100). -/
structure StrengthRow where
  bits : Nat
  keyBytes : Nat
  saltBytes : Nat
  deriving DecidableEq, Repr

/-- The Parameter Table (R100): the row of a strength code, `none` for a code that is not supported (R101). -/
def paramRow (s : Byte) : Option StrengthRow :=
  match s.toNat with
  | 1 => some ⟨128, 16, 8⟩
  | 2 => some ⟨192, 24, 12⟩
  | 3 => some ⟨256, 32, 16⟩
  | _ => none

/-- `Supported(s)` (R101). -/
def supported (s : Byte) : Bool := (paramRow s).isSome

/-- `BITS(s)` (R101). -/
def bitsOf (s : Byte) : Option Nat := (paramRow s).map (·.bits)

/-- `KEYLEN(s)` (R101). -/
def keyLen (s : Byte) : Option Nat := (paramRow s).map (·.keyBytes)

/-- `SALTLEN(s)` (R101). -/
def saltLen (s : Byte) : Option Nat := (paramRow s).map (·.saltBytes)

/-- `HDRLEN` of a row (R102): `SALTLEN + 2`. -/
def hdrLen (row : StrengthRow) : Nat := row.saltBytes + Config.verifierLen

/-- `DKLEN` of a row (R102): `2 * KEYLEN + 2`. -/
def dkLen (row : StrengthRow) : Nat := 2 * row.keyBytes + Config.verifierLen

/-- `steps = ceil(L / 16)` (R103 item 4, R143). -/
def stepCount (len : Nat) : Nat := (len + 15) / Config.block

/-- `m = min(16, L - 16*i)`, the length of block `i` of a chunk of `L` bytes (R103 item 5, R143). -/
def blockLen (len i : Nat) : Nat := min Config.block (len - Config.block * i)

/-- An encrypted entry's stored bytes in their three parts (spec/20_memory.md R55). -/
structure EntryParts where
  header : Bytes
  payload : Bytes
  trailer : Bytes
  deriving DecidableEq, Repr

/-- How the host cuts an entry of `z` bytes (spec/20_memory.md R55; spec/70_reset_and_hazards.md R206): the header for
RESET, `z - HDRLEN - TRAILER_LEN` payload bytes for DECRYPT, and the trailer, which the unit never sees. An entry too short
for header and trailer has no such parts. -/
def cutEntry (row : StrengthRow) (entry : Bytes) : Option EntryParts :=
  if hdrLen row + Config.trailerLen ≤ entry.length then
    let payloadLen := entry.length - hdrLen row - Config.trailerLen
    some ⟨memRead entry 0 (hdrLen row), memRead entry (hdrLen row) payloadLen,
      memRead entry (hdrLen row + payloadLen) Config.trailerLen⟩
  else none

/-- `CtrBlock(n) = LE_4(n + 1) || 0^12` (spec/43_decrypt.md R141). -/
def ctrBlock (n : Nat) : Bytes := le 4 (n + 1) ++ List.replicate 12 0

end Sys2Proof.Machine
end

