-- ==== Sys2Proof/Machine/Flags.lean ====
section
/-! DEFINITION. What a command reports. The unit keeps no flag but PHASE (spec/10_state.md R31): the status code of a
response (spec/60_exceptions.md R171) is an output of its command. The response format is spec/30_encoding.md R74. -/

namespace Sys2Proof.Machine

/-- The statuses of R171. -/
inductive Status where
  | ok
  | unsupportedEncryption
  | badPassword
  | headerLength
  | notReady
  | notConfigured
  | counterOverflow
  | illegalCommand
  | cipherFault
  deriving DecidableEq, Repr

/-- The code of a status (R171). -/
def Status.code : Status → Byte
  | .ok => 0x00
  | .unsupportedEncryption => 0x01
  | .badPassword => 0x02
  | .headerLength => 0x03
  | .notReady => 0x04
  | .notConfigured => 0x05
  | .counterOverflow => 0x06
  | .illegalCommand => 0x07
  | .cipherFault => 0x08

/-- A response frame (R74): the status byte, `rlen` as `LE_4`, then `rdata`. -/
def responseFrame (status : Status) (rdata : Bytes) : Frame :=
  status.code :: (le 4 rdata.length ++ rdata)

end Sys2Proof.Machine
end

