-- ==== Sys2Proof/Machine/Aes.lean ====
section
/-! DEFINITION. The AES forward cipher (encrypt direction) with 16, 24 and 32 byte keys, which spec/93 G2 names (FIPS 197)
and the spec does not write out: PRESUMED, from general knowledge (log 7). A state is its 16 bytes in column order. -/

namespace Sys2Proof.Machine

/-- The S-box as one number: byte `i` is the substitute of `i`. -/
def aesSbox : Nat :=
  (0xc072a49cafa2d4adf04759fa7dc982ca76abd7fe2b670130c56f6bf27b777c63 <<< 0) +
  (0x75b227ebe28012079a059618c323c7041531d871f1e5a534ccf73f362693fdb7 <<< 256) +
  (0xcf584c4a39becb6a5bb1fc20ed00d153842fe329b3d63b52a05a6e1b1a2c8309 <<< 512) +
  (0xd2f3ff1021dab6bcf5389d928f40a351a89f3c507f02f94585334d43fbaaefd0 <<< 768) +
  (0xdb0b5ede14b8ee4688902a22dc4f816073195d643d7ea7c41744975fec130ccd <<< 1024) +
  (0x08ae7a65eaf4566ca94ed58d6d37c8e779e4959162acd3c25c2406490a3a32e0 <<< 1280) +
  (0x9e1dc186b95735610ef6034866b53e708a8bbd4b1f74dde8c6b4a61c2e2578ba <<< 1536) +
  (0x16bb54b00f2d99416842e6bf0d89a18cdf2855cee9871e9b948ed9691198f8e1 <<< 1792)

/-- SubBytes on one byte. -/
def aesSub (b : Byte) : Byte := BitVec.ofNat 8 (aesSbox >>> (8 * b.toNat))

/-- Multiplication by x in the AES field. -/
def aesXtime (b : Byte) : Byte := (b <<< 1) ^^^ (if b.msb then 0x1b else 0)

/-- ShiftRows: the source place of each byte of the result. -/
def aesShiftOrder : List Nat := [0, 5, 10, 15, 4, 9, 14, 3, 8, 13, 2, 7, 12, 1, 6, 11]

/-- SubBytes, then ShiftRows. -/
def aesSubShift (st : Bytes) : Bytes := aesShiftOrder.map fun j => aesSub (st.getD j 0)

/-- One byte of MixColumns: the combination of four bytes of a column, from the row itself downwards. -/
def aesMixByte (a b c d : Byte) : Byte := aesXtime a ^^^ (aesXtime b ^^^ b) ^^^ c ^^^ d

/-- MixColumns. -/
def aesMixColumns (st : Bytes) : Bytes :=
  (List.range 16).map fun i =>
    let at' (r : Nat) : Byte := st.getD (4 * (i / 4) + (i + r) % 4) 0
    aesMixByte (at' 0) (at' 1) (at' 2) (at' 3)

/-- AddRoundKey. -/
def aesAddKey (st rk : Bytes) : Bytes := (List.range 16).map fun i => st.getD i 0 ^^^ rk.getD i 0

/-- Extends the key schedule from word `i` by `n` words of 4 bytes, the most recent first; `nk` is the key's length in
words and `rcon` the next round constant. -/
def aesExpand (nk : Nat) : Nat → Nat → Byte → List Bytes → List Bytes
  | 0, _, _, ws => ws
  | n + 1, i, rcon, ws =>
    let prev := ws.getD 0 []
    let old := ws.getD (nk - 1) []
    if i % nk = 0 then
      let t := (prev.drop 1 ++ prev.take 1).map aesSub
      aesExpand nk n (i + 1) (aesXtime rcon) (xorBytes old (xorBytes t [rcon, 0, 0, 0]) :: ws)
    else if nk > 6 ∧ i % nk = 4 then
      aesExpand nk n (i + 1) rcon (xorBytes old (prev.map aesSub) :: ws)
    else
      aesExpand nk n (i + 1) rcon (xorBytes old prev :: ws)

/-- The number of rounds: 10, 12 or 14 for a key of 16, 24 or 32 bytes (other lengths never occur, log 10). -/
def aesRounds (key : Bytes) : Nat := key.length / 4 + 6

/-- The round keys, 16 bytes each, in order. -/
def aesRoundKeys (key : Bytes) : List Bytes :=
  let nk := key.length / 4
  let total := 4 * (aesRounds key + 1)
  let words := (aesExpand nk (total - nk) nk 1 (pieces 4 nk key).reverse).reverse
  pieces 16 (aesRounds key + 1) words.flatten

/-- The rounds after the first key addition; the last one has no MixColumns. -/
def aesRun : List Bytes → Bytes → Bytes
  | [], st => st
  | [rk], st => aesAddKey (aesSubShift st) rk
  | rk :: rks, st => aesRun rks (aesAddKey (aesMixColumns (aesSubShift st)) rk)

/-- The AES forward cipher of a 16-byte block. -/
def aesEncrypt (key blk : Bytes) : Bytes :=
  let rks := aesRoundKeys key
  aesRun (rks.drop 1) (aesAddKey blk (rks.getD 0 []))

end Sys2Proof.Machine
end

