-- ==== Sys2Proof/Machine/Sha1.lean ====
section
/-! DEFINITION. SHA-1, which spec/42_reset.md R131 names (FIPS 180) and does not write out: PRESUMED, from general
knowledge (log 7). -/

namespace Sys2Proof.Machine

/-- The big-endian 32-bit word of four bytes. -/
def word32OfBytes (b : Bytes) : Word32 := BitVec.ofNat 32 (leNat b.reverse)

/-- The padded message: one `1` bit, zeros, and the bit length as 8 big-endian bytes, a multiple of 64 bytes in all. -/
def sha1Pad (m : Bytes) : Bytes :=
  m ++ 0x80 :: List.replicate ((119 - m.length % 64) % 64) 0 ++ be 8 (8 * m.length)

/-- Extends the message schedule by `k` words, the most recent first. -/
def sha1Extend : Nat → List Word32 → List Word32
  | 0, ws => ws
  | k + 1, ws =>
    sha1Extend k (((ws.getD 2 0 ^^^ ws.getD 7 0 ^^^ ws.getD 13 0 ^^^ ws.getD 15 0).rotateLeft 1) :: ws)

/-- The five working words of SHA-1. -/
structure Sha1Words where
  a : Word32
  b : Word32
  c : Word32
  d : Word32
  e : Word32
  deriving DecidableEq, Repr

/-- The round function and constant of round `t`. -/
def sha1Mix (t : Nat) (b c d : Word32) : Word32 :=
  if t < 20 then ((b &&& c) ||| (~~~b &&& d)) + 0x5A827999
  else if t < 40 then (b ^^^ c ^^^ d) + 0x6ED9EBA1
  else if t < 60 then ((b &&& c) ||| (b &&& d) ||| (c &&& d)) + 0x8F1BBCDC
  else (b ^^^ c ^^^ d) + 0xCA62C1D6

/-- The rounds from `t` on, one for each word of the schedule. -/
def sha1Rounds : Nat → List Word32 → Sha1Words → Sha1Words
  | _, [], h => h
  | t, w :: ws, h =>
    sha1Rounds (t + 1) ws
      ⟨h.a.rotateLeft 5 + sha1Mix t h.b h.c h.d + h.e + w, h.a, h.b.rotateLeft 30, h.c, h.d⟩

/-- One 64-byte block. -/
def sha1Block (h : Sha1Words) (blk : Bytes) : Sha1Words :=
  let first := (pieces 4 16 blk).map word32OfBytes
  let r := sha1Rounds 0 (sha1Extend 64 first.reverse).reverse h
  ⟨h.a + r.a, h.b + r.b, h.c + r.c, h.d + r.d, h.e + r.e⟩

/-- The initial hash words. -/
def sha1Init : Sha1Words := ⟨0x67452301, 0xEFCDAB89, 0x98BADCFE, 0x10325476, 0xC3D2E1F0⟩

/-- The 20 bytes of the working words, big-endian. -/
def sha1Bytes (h : Sha1Words) : Bytes :=
  be 4 h.a.toNat ++ be 4 h.b.toNat ++ be 4 h.c.toNat ++ be 4 h.d.toNat ++ be 4 h.e.toNat

/-- `SHA1(m)`: the 20-byte hash. -/
def sha1 (m : Bytes) : Bytes :=
  let p := sha1Pad m
  sha1Bytes ((pieces 64 (p.length / 64) p).foldl sha1Block sha1Init)

end Sys2Proof.Machine
end

