-- ==== Sys2Proof/Machine/Pbkdf2.lean ====
section
/-! DEFINITION. HMAC-SHA1 and PBKDF2-HMAC-SHA1 as spec/42_reset.md R131 and R130 write them out: the standard function
behind `PBKDF2_HMAC_SHA1` (spec/00_scope.md R9). -/

namespace Sys2Proof.Machine

/-- The HMAC key made 64 bytes long (R131). -/
def hmacKey (k : Bytes) : Bytes :=
  let k' := if k.length > 64 then sha1 k else k
  k' ++ List.replicate (64 - k'.length) 0

/-- `HMAC_SHA1(K, m)` (R131). -/
def hmacSha1 (k m : Bytes) : Bytes :=
  let k' := hmacKey k
  sha1 (xorBytes k' (List.replicate 64 0x5c) ++ sha1 (xorBytes k' (List.replicate 64 0x36) ++ m))

/-- From `U_j` and the exclusive-or of `U_1 .. U_j`, the exclusive-or of `U_1 .. U_(j+n)` (R130). -/
def pbkdf2Iterate (password : Bytes) : Nat → Bytes → Bytes → Bytes
  | 0, _, t => t
  | n + 1, u, t =>
    let u' := hmacSha1 password u
    pbkdf2Iterate password n u' (xorBytes t u')

/-- `T(i)` (R130), for an iteration count `c` of at least 1; the block index is big-endian. -/
def pbkdf2Block (password salt : Bytes) (c i : Nat) : Bytes :=
  let u1 := hmacSha1 password (salt ++ be 4 i)
  pbkdf2Iterate password (c - 1) u1 u1

/-- `PBKDF2_HMAC_SHA1(P, S, c, dkLen)` (R130): the first `dkLen` bytes of `T(1) || T(2) || .. || T(l)`. -/
def pbkdf2Standard (password salt : Bytes) (c len : Nat) : Bytes :=
  (((List.range ((len + 19) / 20)).map fun j => pbkdf2Block password salt c (j + 1)).flatten).take len

end Sys2Proof.Machine
end

