-- ==== Sys2Proof/Machine/Primitives.lean ====
section
/-! DEFINITION. The two external primitive functions as the unit calls them (spec/00_scope.md R9): the standard pair, or an
unknown library's (log 7). -/

namespace Sys2Proof.Machine

/-- `AES_ENC(K, B)` (R9): a 16-byte block. -/
def aesEnc (p : Primitives) (key blk : Bytes) : Bytes :=
  match p with
  | .standard => aesEncrypt key blk
  | .delegated library => (Config.aesLibrary library key blk).toList

/-- `PBKDF2_HMAC_SHA1(P, S, c, dkLen)` (R9): exactly `dkLen` bytes. -/
def pbkdf2HmacSha1 (p : Primitives) (password salt : Bytes) (c len : Nat) : Bytes :=
  match p with
  | .standard => pbkdf2Standard password salt c len
  | .delegated library => (Config.pbkdf2Library library password salt c len).toList

/-- `KS(K, n) = AES_ENC(K, CtrBlock(n))` (spec/43_decrypt.md R142). -/
def keystream (p : Primitives) (key : Bytes) (n : Nat) : Bytes := aesEnc p key (ctrBlock n)

end Sys2Proof.Machine
end

