-- ==== Sys2Proof/Machine/State.lean ====
section
/-! DEFINITION. The state of one unit as plain data (spec/10_state.md R20), with the unit's build parameters and the
host's side of the two ports, and the state after hardware reset (R36). -/

namespace Sys2Proof.Machine

/-- `PHASE` (R23): the state-machine state. -/
inductive Phase where
  /-- No NEW since hardware reset. -/
  | unconfigured
  /-- NEW performed; no RESET has succeeded since, or the last one failed. -/
  | uninitialized
  /-- The last RESET (on an Encryptor: ENC_RESET) succeeded. -/
  | ready
  deriving DecidableEq, Repr

/-- What happens at the unit's boundary, one thing a step (spec/20_memory.md R60; spec/70_reset_and_hazards.md R200). -/
inductive Event where
  /-- The host writes one command frame to the command port (R70). -/
  | command (f : Frame)
  /-- A hardware reset (R200): between commands (`none`), or during the command of a frame already written (`some f`),
  which it abandons. -/
  | hardwareReset (abandoned : Option Frame)
  /-- The primitive units begin or stop reporting faults (R179; DESIGN CHOICE, log 8). -/
  | primitives (fails : Bool)
  deriving DecidableEq, Repr

/-- The registers that can hold no value (R20). -/
inductive OptReg where
  | pw | strength | key | authKey
  deriving DecidableEq, Repr

/-- Why the model stops. -/
inductive Fault where
  /-- A register that holds `none` is read. Raised by the register reads of Machine/Ops.lean. The spec says no rule ever does
  so (R8, R27), and `Invariant` excludes it; it stands only in states that no run reaches. Safe (log 6). -/
  | noValue (r : OptReg)
  deriving DecidableEq, Repr

/-- Why an instruction has no meaning. -/
inductive Refusal where
  /-- The instruction has no meaning yet. Raised by no arm of `exec`. Safe. -/
  | notModelled (mnemonic : String)
  deriving DecidableEq, Repr

/-- One unit: the six registers of R20, its build parameters, and the host's side of its ports. -/
structure State where
  /-- `ROLE`, a build parameter (R6); nothing writes it (log 4). -/
  role : Role
  /-- The primitive functions of R9, a build parameter; nothing writes it (log 7). -/
  prims : Primitives
  /-- `PHASE` (R23). -/
  phase : Phase
  /-- `PW` (R21). -/
  pw : Option Bytes
  /-- `STRENGTH` (R22). -/
  strength : Option Byte
  /-- `CTR` (R24). -/
  ctr : Word32
  /-- `KEY` (R25). -/
  key : Option Bytes
  /-- `AUTHKEY` (R26). -/
  authKey : Option Bytes
  /-- The model's own: whether the primitive units report a fault to calls made now (R179, log 8). -/
  primFails : Bool
  /-- The model's own: what the host and the platform will still do, oldest first (log 1). -/
  inputs : List Event
  /-- The model's own: the response frames delivered so far, oldest first (R74, log 3). -/
  outputs : List Frame
  deriving DecidableEq, Repr

/-- The unit right after hardware reset (R36, R200), built with the spec's default parameters (92, "Open parameters,
gathered"), nothing issued and nothing answered yet. -/
def State.reset : State where
  role := .decryptor
  prims := .standard
  phase := .unconfigured
  pw := none
  strength := none
  ctr := 0
  key := none
  authKey := none
  primFails := false
  inputs := []
  outputs := []

end Sys2Proof.Machine
end

