-- ==== Sys2Proof/Machine/Ops.lean ====
section
/-! DEFINITION. The operations the commands share: answering, taking a failure (spec/60_exceptions.md R170, R182), the guards
in the order of R181, register reads, key derivation (spec/42_reset.md) and the counter-mode transform (spec/43_decrypt.md). -/

namespace Sys2Proof.Machine

/-- What a command answers with. -/
abbrev Result := Host.Outcome State Fault Refusal

/-- Deliver one response frame (R74). -/
def respond (status : Status) (rdata : Bytes) (s : State) : State :=
  { s with outputs := s.outputs ++ [responseFrame status rdata] }

/-- `respond OK(data)` (R8). -/
def answerOk (rdata : Bytes) (s : State) : Result := .next (respond .ok rdata s)

/-- `raise E(info)` (R8), TAKING A FAILURE: the response carries the code and the information bytes, nothing is saved, no
mode changes, and the unit is at once ready for the next command (R182). There is no return from it (R184). -/
def raise (e : Status) (info : Bytes) (s : State) : Result := .next (respond e info s)

/-- The registers after a failure of RESET or ENC_RESET (R127, R182 item 1). -/
def dropCipher (s : State) : State := { s with key := none, authKey := none, phase := .uninitialized }

/-- `Fail(E, info)` (R120). -/
def failReset (e : Status) (info : Bytes) (s : State) : Result := raise e info (dropCipher s)

/-- A primitive unit reports a fault (R179): `CipherFault` with no data, the unit `Uninitialized` without keys. -/
def cipherFault (s : State) : Result := failReset .cipherFault [] s

/-- `KEY <- ek; AUTHKEY <- ak; CTR <- 0; PHASE <- Ready` (R120 step 6, R126, R161). -/
def arm (ek ak : Bytes) (s : State) : State :=
  { s with key := some ek, authKey := some ak, ctr := 0, phase := .ready }

/-- NEW's register writes (R110): all six. -/
def construct (strength : Byte) (password : Bytes) (s : State) : State :=
  { s with
    pw := some password, strength := some strength, ctr := 0, key := none, authKey := none, phase := .uninitialized }

/-- Hardware reset (R200): every register at the value of R36; what belongs to the build or to the outside stays (log 12). -/
def hardReset (s : State) : State :=
  { s with
    phase := .unconfigured, pw := none, strength := none, ctr := 0, key := none, authKey := none }

/-- An opcode of the other role is answered `IllegalCommand` (R77). -/
def whenRole (role : Role) (s : State) (k : Result) : Result :=
  if s.role = role then k else raise .illegalCommand [] s

/-- `if PHASE = Unconfigured: raise NotConfigured([])` (R176). -/
def whenConfigured (s : State) (k : Result) : Result :=
  if s.phase = .unconfigured then raise .notConfigured [] s else k

/-- `if PHASE ≠ Ready: raise NotReady([])`, after the check before it (R175, R181). -/
def whenReady (s : State) (k : Result) : Result :=
  whenConfigured s (if s.phase = .ready then k else raise .notReady [] s)

/-- Read a register that can hold no value. No rule reads `none` (R8, R27); the model stops there (log 6). -/
def readReg {α : Type} (r : OptReg) (v : Option α) (k : α → Result) : Result :=
  match v with
  | some x => k x
  | none => .fault (.noValue r)

/-- The three regions of the derived key material (spec/20_memory.md R54). -/
structure DerivedKeys where
  encKey : Bytes
  authKey : Bytes
  verifier : Bytes
  deriving DecidableEq, Repr

/-- Split `dk` into its regions (R54, R124): `kl` bytes, `kl` bytes, 2 bytes. -/
def splitDk (kl : Nat) (dk : Bytes) : DerivedKeys :=
  ⟨memRead dk 0 kl, memRead dk kl kl, memRead dk (2 * kl) Config.verifierLen⟩

/-- Steps 3 and 4 of RESET (R123, R124): derive from the password and the salt, and split. -/
def deriveKeys (p : Primitives) (password salt : Bytes) (row : StrengthRow) : DerivedKeys :=
  splitDk row.keyBytes (pbkdf2HmacSha1 p password salt Config.iter (dkLen row))

/-- What RESET and ENC_RESET have in common (R120, R161): the guards, step 1, the operand's length against `len row`, and
the derivation from the salt, the operand's first `SALTLEN` bytes; `k` gets the row, the salt and the derived keys. -/
def withDerivedKeys (operand : Bytes) (len : StrengthRow → Nat) (s : State)
    (k : StrengthRow → Bytes → DerivedKeys → Result) : Result :=
  whenConfigured s <|
    readReg .strength s.strength fun st =>
      match paramRow st with
      | none => failReset .unsupportedEncryption [st] s
      | some row =>
        if operand.length = len row then
          if s.primFails then cipherFault s
          else
            readReg .pw s.pw fun password =>
              let salt := memRead operand 0 row.saltBytes
              k row salt (deriveKeys s.prims password salt row)
        else failReset .headerLength [] s

/-- The loop of DECRYPT (R140): from step `i` on, `n` steps left, the counter at `ctr` and the output written so far. -/
def transformLoop (p : Primitives) (key cin : Bytes) : Nat → Nat → Nat → Bytes → Nat × Bytes
  | 0, _, ctr, cout => (ctr, cout)
  | n + 1, i, ctr, cout =>
    let m := blockLen cin.length i
    let blk := memRead cin (Config.block * i) m
    let ks := keystream p key ctr
    transformLoop p key cin n (i + 1) (ctr + 1)
      (memWrite cout (Config.block * i) (xorBytes blk (ks.take m)))

/-- DECRYPT's and ENCRYPT's common body (R140, R162). A chunk of no bytes takes no step: no primitive is called and KEY is
not read. The new counter is at most `2^32 - 1` by the check before the loop (R146), so it fits its 32 bits. -/
def transformChunk (cin : Bytes) (s : State) : Result :=
  whenReady s <|
    let steps := stepCount cin.length
    if s.ctr.toNat + steps > Config.ctrMax then raise .counterOverflow [] s
    else if steps = 0 then answerOk [] s
    else if s.primFails then cipherFault s
    else
      readReg .key s.key fun key =>
        let r := transformLoop s.prims key cin steps 0 s.ctr.toNat []
        answerOk r.2 { s with ctr := BitVec.ofNat 32 r.1 }

end Sys2Proof.Machine
end

