-- ==== Sys2Proof/Machine/Construction.lean ====
section
/-! DEFINITION. Construction and the two pure queries: NEW, HDRSZ, GPFLAG (spec/41_config_and_query.md). -/

namespace Sys2Proof.Machine

/-- NEW (R110): the strength is stored verbatim and not validated; never fails. -/
def execNew (strength : Byte) (password : Bytes) (s : State) : Result :=
  answerOk [] (construct strength password s)

/-- HDRSZ (R111): one byte, `SALTLEN(STRENGTH) + 2`; writes no register, also when it fails. -/
def execHdrsz (s : State) : Result :=
  whenConfigured s <|
    readReg .strength s.strength fun st =>
      match paramRow st with
      | none => raise .unsupportedEncryption [st] s
      | some row => answerOk [BitVec.ofNat 8 (hdrLen row)] s

/-- GPFLAG (R112): `LE_2(0x0001)`, in every phase. -/
def execGpflag (s : State) : Result := answerOk (le 2 Config.gpFlag) s

end Sys2Proof.Machine
end

