-- ==== Sys2Proof/Machine/Encryptor.lean ====
section
/-! DEFINITION. The Encryptor role: ENC_RESET, ENCRYPT (spec/44_encryptor.md). -/

namespace Sys2Proof.Machine

/-- ENC_RESET (R161): derive from the host's salt, arm the cipher, and hand back the header, salt then computed verifier.
Encryptor only (R77); never `BadPassword`. -/
def execEncReset (salt : Bytes) (s : State) : Result :=
  whenRole .encryptor s <|
    withDerivedKeys salt (·.saltBytes) s fun row saltRead keys =>
      let hout := memWrite (memWrite [] 0 saltRead) row.saltBytes keys.verifier
      answerOk hout (arm keys.encKey keys.authKey s)

/-- ENCRYPT (R162): exactly the transform of R140. Encryptor only (R77). -/
def execEncrypt (cin : Bytes) (s : State) : Result := whenRole .encryptor s (transformChunk cin s)

end Sys2Proof.Machine
end

