-- ==== Sys2Proof/Machine/KeyDerivation.lean ====
section
/-! DEFINITION. Key derivation and password verification: RESET, RDAUTH (spec/42_reset.md). -/

namespace Sys2Proof.Machine

/-- RESET (R120 to R128): derive, compare the 2 verifier bytes, and only then arm the cipher. Decryptor only (R77). -/
def execReset (hdr : Bytes) (s : State) : Result :=
  whenRole .decryptor s <|
    withDerivedKeys hdr hdrLen s fun row _ keys =>
      let supplied := memRead hdr row.saltBytes Config.verifierLen
      if keys.verifier = supplied then answerOk [] (arm keys.encKey keys.authKey s)
      else failReset .badPassword [] s

/-- RDAUTH (R129): the authentication key, in phase Ready only; writes no register. -/
def execRdauth (s : State) : Result :=
  whenReady s <| readReg .authKey s.authKey fun ak => answerOk ak s

end Sys2Proof.Machine
end

