-- ==== Sys2Proof/Machine/Stream.lean ====
section
/-! DEFINITION. The streaming counter-mode transform: DECRYPT (spec/43_decrypt.md). -/

namespace Sys2Proof.Machine

/-- DECRYPT (R140 to R151). Decryptor only (R77). -/
def execDecrypt (cin : Bytes) (s : State) : Result := whenRole .decryptor s (transformChunk cin s)

end Sys2Proof.Machine
end

