-- ==== Sys2Proof/Machine/Dispatch.lean ====
section
/-! DEFINITION. One meaning per command (spec/30_encoding.md R75). -/

namespace Sys2Proof.Machine

def exec (i : Instr) (s : State) : Host.Outcome State Fault Refusal :=
  match i with
  | .new strength password => Sys2Proof.Machine.execNew strength password s
  | .hdrsz => Sys2Proof.Machine.execHdrsz s
  | .gpflag => Sys2Proof.Machine.execGpflag s
  | .reset hdr => Sys2Proof.Machine.execReset hdr s
  | .decrypt cin => Sys2Proof.Machine.execDecrypt cin s
  | .rdauth => Sys2Proof.Machine.execRdauth s
  | .encReset salt => Sys2Proof.Machine.execEncReset salt s
  | .encrypt cin => Sys2Proof.Machine.execEncrypt cin s

end Sys2Proof.Machine
end

