-- ==== Sys2Proof/Machine/Port.lean ====
section
/-! DEFINITION. The command port (spec/30_encoding.md R70, R82), the events at the unit's boundary (spec/20_memory.md R60,
spec/70_reset_and_hazards.md R200), and placing a command as the next one. -/

namespace Sys2Proof.Machine

/-- One delivered frame: a frame the decoder rejects is answered `IllegalCommand` and changes no register (R77, R78, R178);
any other runs its command. -/
def performFrame (f : Frame) (s : State) : Result :=
  match decode f with
  | .ok i => exec i s
  | .error _ => raise .illegalCommand [] s

/-- One event. A hardware reset during a command abandons it: no response, and the power-on state (R200). -/
def perform (e : Event) (s : State) : Result :=
  match e with
  | .command f => performFrame f s
  | .hardwareReset _ => .next (hardReset s)
  | .primitives fails => .next { s with primFails := fails }

/-- Take the oldest event. With none, nothing happens (R60 item 5; log 2). -/
def serve (s : State) : Result :=
  match s.inputs with
  | [] => .next s
  | e :: rest => perform e { s with inputs := rest }

/-- The role in which an opcode is a command (R75): the unit's own where that is legal, else the other one. -/
def roleFor (op : Opcode) (role : Role) : Role :=
  if op.legalFor role then role
  else
    match role with
    | .decryptor => .encryptor
    | .encryptor => .decryptor

/-- The role in which a frame's opcode is a command; a frame of no opcode leaves the role. -/
def roleForFrame (f : Frame) (role : Role) : Role :=
  match f with
  | [] => role
  | b :: _ =>
    match opcodeOfByte b with
    | none => role
    | some op => roleFor op role

/-- The host writes this frame next, to a unit built in a role for which it is a command (log 15). -/
def placeFrame (f : Frame) (s : State) : State :=
  { s with inputs := .command f :: s.inputs, role := roleForFrame f s.role }

end Sys2Proof.Machine
end

