-- ==== Sys2Proof/Machine/Step.lean ====
section
/-! DEFINITION. One step of the unit: one event, one command (spec/00_scope.md R10; spec/20_memory.md R60). -/

namespace Sys2Proof.Machine

/-- One step: the oldest event of `inputs`. -/
def step (s : State) : Host.Outcome State Fault Refusal := serve s

/-- `s` with the instruction whose bits are `w` as the next command frame. -/
def State.withFetchWord (s : State) (nbits w : Nat) : State := placeFrame (tableFrame nbits w) s

end Sys2Proof.Machine
end

