-- ==== Sys2Proof/Safety.lean ====
section
/-! DEFINITION. The terms claims are stated in: the invariants of spec/10_state.md R27, a safe step, runs of commands, the
byte-wise form of the transform (spec/43_decrypt.md R147), the host's premise AlignedChunks (R148), and the frames the
decoder must reject as the rules list them (spec/30_encoding.md R77, R78). -/

namespace Sys2Proof.Machine

/-- R27 item 3: the keys of phase Ready are the first two regions derived from the password and some salt. -/
def KeysDerived (s : State) : Prop :=
  ∃ password st row ek ak salt,
    s.pw = some password ∧ s.strength = some st ∧ paramRow st = some row ∧
    s.key = some ek ∧ s.authKey = some ak ∧
    ek.length = row.keyBytes ∧ ak.length = row.keyBytes ∧ salt.length = row.saltBytes ∧
    ek ++ ak = (pbkdf2HmacSha1 s.prims password salt Config.iter (dkLen row)).take (2 * row.keyBytes)

/-- The invariants of R27, with what R20, R25 and R26 add: each register that can hold no value holds one in exactly the
phases the spec gives. Item 4 (the range of CTR) is the type of `ctr`. -/
structure Invariant (s : State) : Prop where
  /-- Item 1, PW. -/
  pw_none_iff : s.pw = none ↔ s.phase = .unconfigured
  /-- Item 1, STRENGTH. -/
  strength_none_iff : s.strength = none ↔ s.phase = .unconfigured
  /-- Item 2 and R25. -/
  key_none_iff : s.key = none ↔ s.phase ≠ .ready
  /-- Item 2 and R26. -/
  authKey_none_iff : s.authKey = none ↔ s.phase ≠ .ready
  /-- Item 3. -/
  keys_derived : s.phase = .ready → KeysDerived s
  /-- Item 5. -/
  ctr_unconfigured : s.phase = .unconfigured → s.ctr = 0
  /-- R20: a password has at most PW_MAX bytes. -/
  pw_bound : ∀ password, s.pw = some password → password.length ≤ Config.pwMax

/-- A step is safe when the machine does not stop. -/
def SafeStep (s : State) : Prop := ∃ t, step s = .next t

/-- Several commands one after the other (R60), stopping where one stops. -/
def runCommands : List Instr → State → Result
  | [], s => .next s
  | i :: rest, s =>
    match exec i s with
    | .next t => runCommands rest t
    | .fault r => .fault r
    | .refused r => .refused r

/-- The byte-wise form of the transform (R147): byte `j` of the input meets byte `j mod 16` of the keystream block with
index `c + j div 16`. -/
def streamXor (p : Primitives) (key : Bytes) (c : Nat) (cin : Bytes) : Bytes :=
  cin.mapIdx fun j b => b ^^^ (keystream p key (c + j / 16)).getD (j % 16) 0

/-- `AlignedChunks` (R148, R204): every chunk except possibly the last has a length that is a multiple of 16. -/
def AlignedChunks (chunks : List Bytes) : Prop := ∀ x ∈ chunks.dropLast, x.length % 16 = 0

/-- `i` is DECRYPT on a Decryptor or ENCRYPT on an Encryptor, of this chunk. -/
def TransformsChunk (i : Instr) (cin : Bytes) (s : State) : Prop :=
  (i = .decrypt cin ∧ s.role = .decryptor) ∨ (i = .encrypt cin ∧ s.role = .encryptor)

/-- R78: a frame is malformed exactly as the rule lists, with `pwlen` and `dlen` computed byte by byte (R76). -/
def MalformedFrame (f : Frame) : Prop :=
  f = [] ∨
    (f.head? ∈ [some (0x02 : Byte), some 0x03, some 0x06] ∧ f.length ≠ 1) ∨
    (f.head? = some 0x01 ∧
      (f.length < 4 ∨ f.length ≠ 4 + ((f.getD 2 0).toNat + 256 * (f.getD 3 0).toNat))) ∨
    (f.head? ∈ [some (0x04 : Byte), some 0x05, some 0x14, some 0x15] ∧
      (f.length < 5 ∨ f.length ≠ 5 + ((f.getD 1 0).toNat + 256 * (f.getD 2 0).toNat + 65536 * (f.getD 3 0).toNat +
        16777216 * (f.getD 4 0).toNat)))

/-- R77: a byte 0 that is in no row of R75. -/
def ReservedOpcode (b : Byte) : Prop :=
  b.toNat = 0 ∨ (0x07 ≤ b.toNat ∧ b.toNat ≤ 0x13) ∨ 0x16 ≤ b.toNat

end Sys2Proof.Machine
end

