-- ==== Sys2Proof/Certificates/Slice0/Obligations.lean ====
section
/-! DEFINITION. The statements for the provers, from the numbered rules of spec/. "The primitives do not fail" (D15) is the
premise `s.primFails = false`. -/

open Sys2Proof Sys2Proof.Machine

/-! ## Encoding -/

/-- R71 to R76: the decoder gives back every well-formed command from its frame. -/
def Obligations.DecodeOfEncode : Prop :=
  ∀ i : Instr, i.wellFormed = true → decode (encode i) = .ok i

/-- R71 to R79: a frame the decoder accepts is the frame of the command it reads, and that command is well-formed. -/
def Obligations.EncodeOfDecode : Prop :=
  ∀ (f : Frame) (i : Instr), decode f = .ok i → encode i = f ∧ i.wellFormed = true

/-- Frames written out in spec/95_test_vectors.md (T1, T2, T9) and their commands. -/
def Obligations.SpelledOutFramesDecode : Prop :=
  decode [0x01, 0x03, 0x08, 0x00, 0x70, 0x61, 0x73, 0x73, 0x77, 0x6f, 0x72, 0x64] =
      .ok (.new 3 [0x70, 0x61, 0x73, 0x73, 0x77, 0x6f, 0x72, 0x64]) ∧
    decode [0x02] = .ok .hdrsz ∧ decode [0x03] = .ok .gpflag ∧ decode [0x06] = .ok .rdauth ∧
    decode [0x04, 0x0a, 0x00, 0x00, 0x00, 0x7f, 0xfe, 0x75, 0x71, 0xff, 0xd1, 0xab, 0x83, 0xb3, 0x6a] =
      .ok (.reset [0x7f, 0xfe, 0x75, 0x71, 0xff, 0xd1, 0xab, 0x83, 0xb3, 0x6a]) ∧
    decode [0x05, 0x03, 0x00, 0x00, 0x00, 0x22, 0x21, 0x6a] = .ok (.decrypt [0x22, 0x21, 0x6a]) ∧
    decode [0x14, 0x02, 0x00, 0x00, 0x00, 0x00, 0x01] = .ok (.encReset [0x00, 0x01]) ∧
    decode [0x15, 0x01, 0x00, 0x00, 0x00, 0x68] = .ok (.encrypt [0x68])

/-- R78: a malformed frame is answered `IllegalCommand` and changes no register. -/
def Obligations.MalformedFrameIsIllegal : Prop :=
  ∀ (s : State) (f : Frame) (rest : List Event), s.inputs = .command f :: rest → MalformedFrame f →
    step s = .next { s with inputs := rest, outputs := s.outputs ++ [[0x07, 0, 0, 0, 0]] }

/-- R77: a reserved opcode, and an opcode of the other role, is answered `IllegalCommand` and changes no register. -/
def Obligations.ReservedOrOtherRoleIsIllegal : Prop :=
  (∀ (s : State) (b : Byte) (more : Bytes) (rest : List Event),
      s.inputs = .command (b :: more) :: rest → ReservedOpcode b →
      step s = .next { s with inputs := rest, outputs := s.outputs ++ [[0x07, 0, 0, 0, 0]] }) ∧
    (∀ (s : State) (b : Byte) (more : Bytes) (rest : List Event),
      s.inputs = .command (b :: more) :: rest →
      (s.role = .encryptor ∧ (b = 0x04 ∨ b = 0x05)) ∨ (s.role = .decryptor ∧ (b = 0x14 ∨ b = 0x15)) →
      step s = .next { s with inputs := rest, outputs := s.outputs ++ [[0x07, 0, 0, 0, 0]] })

/-- R78, R82: a frame that is neither malformed nor of a reserved opcode is decoded. -/
def Obligations.WellFormedFrameDecodes : Prop :=
  ∀ (b : Byte) (more : Bytes), ¬ MalformedFrame (b :: more) → ¬ ReservedOpcode b →
    ∃ i, decode (b :: more) = .ok i ∧ i.opcode.byte = b

/-! ## Reset, steps and events -/

/-- R36: the registers after hardware reset. -/
def Obligations.ResetRegisters : Prop :=
  State.reset.phase = .unconfigured ∧ State.reset.ctr = 0 ∧ State.reset.pw = none ∧
    State.reset.strength = none ∧ State.reset.key = none ∧ State.reset.authKey = none

/-- R200: a hardware reset, also one that abandons a command: the registers of R36 and no response. What is no register of
the unit stays (the model's choice, log 12). -/
def Obligations.HardwareResetWritesRegisters : Prop :=
  ∀ (s : State) (abandoned : Option Frame) (rest : List Event), s.inputs = .hardwareReset abandoned :: rest →
    step s = .next { s with
      phase := .unconfigured, ctr := 0, pw := none, strength := none, key := none, authKey := none, inputs := rest }

/-- R60, R70, R82: when the frame the host writes next decodes, the step is the command's meaning on the state without that
frame. -/
def Obligations.StepRunsDecodedCommand : Prop :=
  ∀ (s : State) (f : Frame) (rest : List Event) (i : Instr), s.inputs = .command f :: rest → decode f = .ok i →
    step s = exec i { s with inputs := rest }

/-- R60 item 5, with the model's choice of what a step without an event is (log 2): nothing happens. -/
def Obligations.StepWithoutEventChangesNothing : Prop :=
  ∀ s : State, s.inputs = [] → step s = .next s

/-- The model's own placing of a table word (log 15): the very next step runs the command the word decodes to, in the
unit's own role where the command is legal there, and in a role where it is legal otherwise. -/
def Obligations.PlacedWordRunsNext : Prop :=
  ∀ (s : State) (nbits w : Nat) (i : Instr), decodeTableWord nbits w = some i →
    step (s.withFetchWord nbits w) = exec i { s with role := (s.withFetchWord nbits w).role } ∧
      i.opcode.legalFor (s.withFetchWord nbits w).role = true ∧
      (i.opcode.legalFor s.role = true → (s.withFetchWord nbits w).role = s.role)

/-! ## Construction and queries -/

/-- R110: NEW from every state, for every strength code and password. -/
def Obligations.NewConstructs : Prop :=
  ∀ (strength : Byte) (password : Bytes) (s : State),
    exec (.new strength password) s = .next { s with
      pw := some password, strength := some strength, ctr := 0, key := none, authKey := none,
      phase := .uninitialized, outputs := s.outputs ++ [[0x00, 0, 0, 0, 0]] }

/-- R62, R110: after NEW no key of an earlier RESET is used or handed out. -/
def Obligations.NewDropsOldKeys : Prop :=
  ∀ (strength : Byte) (password cin : Bytes) (s t : State), exec (.new strength password) s = .next t →
    exec (.decrypt cin) { t with role := .decryptor } =
        .next { t with role := .decryptor, outputs := t.outputs ++ [[0x04, 0, 0, 0, 0]] } ∧
      exec (.encrypt cin) { t with role := .encryptor } =
        .next { t with role := .encryptor, outputs := t.outputs ++ [[0x04, 0, 0, 0, 0]] } ∧
      exec .rdauth t = .next { t with outputs := t.outputs ++ [[0x04, 0, 0, 0, 0]] }

/-- R111: HDRSZ in every phase and for every strength code; it writes no register. -/
def Obligations.HdrszAnswersHeaderSize : Prop :=
  ∀ s : State,
    (s.phase = .unconfigured → exec .hdrsz s = .next { s with outputs := s.outputs ++ [[0x05, 0, 0, 0, 0]] }) ∧
    (s.phase ≠ .unconfigured → ∀ st, s.strength = some st →
      exec .hdrsz s = .next { s with
        outputs := s.outputs ++
          [if st = 1 then [0x00, 1, 0, 0, 0, 10]
           else if st = 2 then [0x00, 1, 0, 0, 0, 14]
           else if st = 3 then [0x00, 1, 0, 0, 0, 18]
           else [0x01, 1, 0, 0, 0, st]] })

/-- R112: GPFLAG from every state. -/
def Obligations.GpflagIsConstant : Prop :=
  ∀ s : State, exec .gpflag s = .next { s with outputs := s.outputs ++ [[0x00, 2, 0, 0, 0, 0x01, 0x00]] }

/-- R129: RDAUTH in every phase; it writes no register. -/
def Obligations.RdauthAnswersAuthKey : Prop :=
  ∀ s : State,
    (s.phase = .unconfigured → exec .rdauth s = .next { s with outputs := s.outputs ++ [[0x05, 0, 0, 0, 0]] }) ∧
    (s.phase = .uninitialized → exec .rdauth s = .next { s with outputs := s.outputs ++ [[0x04, 0, 0, 0, 0]] }) ∧
    (s.phase = .ready → ∀ ak, s.authKey = some ak →
      exec .rdauth s = .next { s with outputs := s.outputs ++ [0x00 :: (le 4 ak.length ++ ak)] })

/-- R58: HDRSZ, GPFLAG and RDAUTH change no register and answer the same again. -/
def Obligations.QueriesRepeat : Prop :=
  ∀ (i : Instr) (s t : State), i = .hdrsz ∨ i = .gpflag ∨ i = .rdauth → exec i s = .next t →
    { t with outputs := s.outputs } = s ∧
      ∃ f, t.outputs = s.outputs ++ [f] ∧ exec i t = .next { t with outputs := t.outputs ++ [f] }

/-- R100, R101, R102: the Parameter Table and the derived lengths for all 256 codes. -/
def Obligations.ParameterTableValues : Prop :=
  ∀ s : Byte,
    (supported s = true ↔ s = 1 ∨ s = 2 ∨ s = 3) ∧
    (bitsOf s, keyLen s, saltLen s) =
      (if s = 1 then (some 128, some 16, some 8)
       else if s = 2 then (some 192, some 24, some 12)
       else if s = 3 then (some 256, some 32, some 16)
       else (none, none, none)) ∧
    ((paramRow s).map hdrLen, (paramRow s).map dkLen) =
      (if s = 1 then (some 10, some 34)
       else if s = 2 then (some 14, some 50)
       else if s = 3 then (some 18, some 66)
       else (none, none))

/-! ## Key derivation and password verification -/

/-- R120 step 6, R123, R124, R126: RESET with a supported strength, a header of the right length and a matching verifier,
from phase Uninitialized and from phase Ready. -/
def Obligations.ResetArmsCipher : Prop :=
  ∀ (s : State) (st : Byte) (kl sl : Nat) (password salt supplied : Bytes),
    s.role = .decryptor → s.phase ≠ .unconfigured → s.primFails = false → s.pw = some password →
    s.strength = some st → keyLen st = some kl → saltLen st = some sl →
    salt.length = sl → supplied.length = 2 →
    let dk := pbkdf2HmacSha1 s.prims password salt 1000 (2 * kl + 2)
    dk.drop (2 * kl) = supplied →
    exec (.reset (salt ++ supplied)) s = .next { s with
      key := some (dk.take kl), authKey := some ((dk.drop kl).take kl), ctr := 0, phase := .ready,
      outputs := s.outputs ++ [[0x00, 0, 0, 0, 0]] }

/-- R121, R122, R125, R127, R181 item 3: the failures of RESET in their order, with what each leaves. -/
def Obligations.ResetFailsInOrder : Prop :=
  ∀ (s : State) (hdr : Bytes), s.role = .decryptor →
    (s.phase = .unconfigured →
      exec (.reset hdr) s = .next { s with outputs := s.outputs ++ [[0x05, 0, 0, 0, 0]] }) ∧
    (s.phase ≠ .unconfigured → ∀ st, s.strength = some st →
      (keyLen st = none → exec (.reset hdr) s = .next { s with
        key := none, authKey := none, phase := .uninitialized, outputs := s.outputs ++ [[0x01, 1, 0, 0, 0, st]] }) ∧
      (∀ kl sl, keyLen st = some kl → saltLen st = some sl →
        (hdr.length ≠ sl + 2 → exec (.reset hdr) s = .next { s with
          key := none, authKey := none, phase := .uninitialized, outputs := s.outputs ++ [[0x03, 0, 0, 0, 0]] }) ∧
        (hdr.length = sl + 2 → s.primFails = false → ∀ password, s.pw = some password →
          (pbkdf2HmacSha1 s.prims password (hdr.take sl) 1000 (2 * kl + 2)).drop (2 * kl) ≠ hdr.drop sl →
          exec (.reset hdr) s = .next { s with
            key := none, authKey := none, phase := .uninitialized,
            outputs := s.outputs ++ [[0x02, 0, 0, 0, 0]] })))

/-- R132: a RESET whose earlier checks pass leaves phase Ready exactly when the 2 verifier bytes match, whatever password is
stored. -/
def Obligations.ResetReadyIffVerifierMatches : Prop :=
  ∀ (s : State) (st : Byte) (kl sl : Nat) (password hdr : Bytes),
    s.role = .decryptor → s.phase ≠ .unconfigured → s.primFails = false → s.pw = some password →
    s.strength = some st → keyLen st = some kl → saltLen st = some sl → hdr.length = sl + 2 →
    ∃ t, exec (.reset hdr) s = .next t ∧
      (t.phase = .ready ↔
        (pbkdf2HmacSha1 s.prims password (hdr.take sl) 1000 (2 * kl + 2)).drop (2 * kl) = hdr.drop sl)

/-- R125, R173: a rejected password leaves no key, and a DECRYPT after it gives no data. -/
def Obligations.RejectedPasswordGivesNoPlaintext : Prop :=
  ∀ (s t : State) (hdr cin : Bytes), exec (.reset hdr) s = .next t →
    t.outputs = s.outputs ++ [responseFrame .badPassword []] →
    t.key = none ∧ t.authKey = none ∧ t.phase = .uninitialized ∧
      exec (.decrypt cin) t = .next { t with outputs := t.outputs ++ [[0x04, 0, 0, 0, 0]] }

/-- R128: after a successful RESET the registers KEY, AUTHKEY, CTR and PHASE depend only on PW, STRENGTH and the header
(and on which primitives the unit was built with), and CTR is 0. -/
def Obligations.ResetForgetsEarlierEntries : Prop :=
  ∀ (s s' t t' : State) (hdr : Bytes), s.pw = s'.pw → s.strength = s'.strength → s.prims = s'.prims →
    exec (.reset hdr) s = .next t → exec (.reset hdr) s' = .next t' →
    t.outputs = s.outputs ++ [responseFrame .ok []] → t'.outputs = s'.outputs ++ [responseFrame .ok []] →
    t.key = t'.key ∧ t.authKey = t'.authKey ∧ t.ctr = 0 ∧ t'.ctr = 0 ∧ t.phase = .ready ∧ t'.phase = .ready

/-! ## The transform -/

/-- R141: the counter block, byte by byte. -/
def Obligations.CounterBlockBytes : Prop :=
  ∀ n : Nat, n ≤ 4294967294 →
    ctrBlock n = [BitVec.ofNat 8 ((n + 1) % 256), BitVec.ofNat 8 ((n + 1) / 256 % 256),
      BitVec.ofNat 8 ((n + 1) / 65536 % 256), BitVec.ofNat 8 ((n + 1) / 16777216 % 256),
      0, 0, 0, 0, 0, 0, 0, 0, 0, 0, 0, 0]

/-- R141, R146: no two block indices below the limit share a counter block, and none is the block of field value 0. -/
def Obligations.CounterBlocksDiffer : Prop :=
  ∀ n m : Nat, n ≤ 4294967294 → m ≤ 4294967294 →
    (ctrBlock n = ctrBlock m → n = m) ∧ ctrBlock n ≠ List.replicate 16 0

/-- R143: a chunk of `L` bytes is cut into `ceil(L/16)` blocks of 1 to 16 bytes, all but the last of 16, that together are
the chunk. -/
def Obligations.ChunkIsCutIntoBlocks : Prop :=
  ∀ cin : Bytes,
    (((List.range (stepCount cin.length)).map fun i => memRead cin (16 * i) (blockLen cin.length i)).flatten = cin) ∧
    (∀ i, i < stepCount cin.length →
      1 ≤ blockLen cin.length i ∧ blockLen cin.length i ≤ 16 ∧
      (memRead cin (16 * i) (blockLen cin.length i)).length = blockLen cin.length i ∧
      (i + 1 < stepCount cin.length → blockLen cin.length i = 16)) ∧
    (stepCount cin.length ≠ 0 →
      blockLen cin.length (stepCount cin.length - 1) = cin.length - 16 * (stepCount cin.length - 1))

/-- R140, R144, R145, R147, R162: DECRYPT and ENCRYPT in phase Ready below the counter limit: the output byte by byte, the
new counter, and nothing else. -/
def Obligations.TransformOutputBytes : Prop :=
  ∀ (i : Instr) (s : State) (cin key : Bytes), TransformsChunk i cin s → s.phase = .ready → s.key = some key →
    s.primFails = false → s.ctr.toNat + (cin.length + 15) / 16 ≤ 4294967295 →
    ∃ (out : Bytes) (c : Word32),
      exec i s = .next { s with ctr := c, outputs := s.outputs ++ [responseFrame .ok out] } ∧
      c.toNat = s.ctr.toNat + (cin.length + 15) / 16 ∧
      out.length = cin.length ∧
      ∀ j (hj : j < cin.length),
        out[j]? = some (cin[j] ^^^ (aesEnc s.prims key (ctrBlock (s.ctr.toNat + j / 16))).getD (j % 16) 0)

/-- R145, R146, R175, R176, R177, R181: the failures of DECRYPT and ENCRYPT in their order; nothing changes. -/
def Obligations.TransformFailsInOrder : Prop :=
  ∀ (i : Instr) (s : State) (cin : Bytes), TransformsChunk i cin s →
    (s.phase = .unconfigured → exec i s = .next { s with outputs := s.outputs ++ [[0x05, 0, 0, 0, 0]] }) ∧
    (s.phase = .uninitialized → exec i s = .next { s with outputs := s.outputs ++ [[0x04, 0, 0, 0, 0]] }) ∧
    (s.phase = .ready → s.ctr.toNat + (cin.length + 15) / 16 > 4294967295 →
      exec i s = .next { s with outputs := s.outputs ++ [[0x06, 0, 0, 0, 0]] })

/-- R140, R146: a chunk of no bytes in phase Ready is answered `OK` with no data at every counter value.
That this holds also while the primitives fail, since an empty chunk calls none, is the model's reading (log 9). -/
def Obligations.EmptyChunkChangesNothing : Prop :=
  ∀ (i : Instr) (s : State), TransformsChunk i [] s → s.phase = .ready →
    exec i s = .next { s with outputs := s.outputs ++ [[0x00, 0, 0, 0, 0]] }

/-- R162: ENCRYPT on an Encryptor does exactly what DECRYPT does on a Decryptor with the same other state: the next states
agree in all but the role, and one stops exactly where the other does. -/
def Obligations.EncryptEqualsDecrypt : Prop :=
  ∀ (s : State) (cin : Bytes),
    (∀ t, exec (.decrypt cin) { s with role := .decryptor } = .next t ↔
      (t.role = .decryptor ∧ exec (.encrypt cin) { s with role := .encryptor } = .next { t with role := .encryptor })) ∧
    (∀ r, exec (.decrypt cin) { s with role := .decryptor } = .fault r ↔
      exec (.encrypt cin) { s with role := .encryptor } = .fault r)

/-- R151: from the same KEY and CTR, the transform of the transform of a chunk is the chunk. -/
def Obligations.TransformIsInvolution : Prop :=
  ∀ (i : Instr) (s : State) (cin key : Bytes), TransformsChunk i cin s → s.phase = .ready → s.key = some key →
    s.primFails = false → s.ctr.toNat + (cin.length + 15) / 16 ≤ 4294967295 →
    ∃ out t u, exec i s = .next t ∧ t.outputs = s.outputs ++ [responseFrame .ok out] ∧
      (∀ j, TransformsChunk j out s →
        exec j s = .next u ∧ u.outputs = s.outputs ++ [responseFrame .ok cin])

/-- R148: under AlignedChunks, DECRYPT of the chunks in order gives the bytes and the final counter of one DECRYPT of the
whole. -/
def Obligations.ChunkBoundariesDoNotMatter : Prop :=
  ∀ (s : State) (key : Bytes) (chunks : List Bytes), s.role = .decryptor → s.phase = .ready → s.key = some key →
    s.primFails = false → s.ctr.toNat + (chunks.flatten.length + 15) / 16 ≤ 4294967295 → AlignedChunks chunks →
    ∃ (t u : State) (outs : List Bytes), runCommands (chunks.map .decrypt) s = .next t ∧ exec (.decrypt chunks.flatten) s = .next u ∧
      t.outputs = s.outputs ++ outs.map (responseFrame .ok) ∧ outs.length = chunks.length ∧
      u.outputs = s.outputs ++ [responseFrame .ok outs.flatten] ∧
      t.ctr = u.ctr ∧ t.ctr.toNat = s.ctr.toNat + (chunks.flatten.length + 15) / 16 ∧
      { t with outputs := s.outputs } = { u with outputs := s.outputs }

/-- R149: after a chunk `x`, whole blocks or not, the next chunk meets the keystream from offset 0 of the block with index
`CTR + ceil(len x / 16)`. -/
def Obligations.NextChunkStartsNewBlock : Prop :=
  ∀ (s : State) (key x y : Bytes), s.role = .decryptor → s.phase = .ready → s.key = some key →
    s.primFails = false → s.ctr.toNat + (x.length + 15) / 16 + (y.length + 15) / 16 ≤ 4294967295 →
    ∃ t outx outy, runCommands [.decrypt x, .decrypt y] s = .next t ∧
      t.outputs = s.outputs ++ [responseFrame .ok outx, responseFrame .ok outy] ∧ outy.length = y.length ∧
      t.ctr.toNat = s.ctr.toNat + (x.length + 15) / 16 + (y.length + 15) / 16 ∧
      ∀ j (hj : j < y.length), outy[j]? = some (y[j] ^^^
        (aesEnc s.prims key (ctrBlock (s.ctr.toNat + (x.length + 15) / 16 + j / 16))).getD (j % 16) 0)

/-! ## The Encryptor -/

/-- R161: ENC_RESET with a supported strength and a salt of the right length. -/
def Obligations.EncResetProducesHeader : Prop :=
  ∀ (s : State) (st : Byte) (kl sl : Nat) (password salt : Bytes),
    s.role = .encryptor → s.phase ≠ .unconfigured → s.primFails = false → s.pw = some password →
    s.strength = some st → keyLen st = some kl → saltLen st = some sl → salt.length = sl →
    let dk := pbkdf2HmacSha1 s.prims password salt 1000 (2 * kl + 2)
    exec (.encReset salt) s = .next { s with
      key := some (dk.take kl), authKey := some ((dk.drop kl).take kl), ctr := 0, phase := .ready,
      outputs := s.outputs ++ [responseFrame .ok (salt ++ dk.drop (2 * kl))] }

/-- R161, R174, R181: the failures of ENC_RESET in their order. -/
def Obligations.EncResetFailsInOrder : Prop :=
  ∀ (s : State) (salt : Bytes), s.role = .encryptor →
    (s.phase = .unconfigured →
      exec (.encReset salt) s = .next { s with outputs := s.outputs ++ [[0x05, 0, 0, 0, 0]] }) ∧
    (s.phase ≠ .unconfigured → ∀ st, s.strength = some st →
      (saltLen st = none → exec (.encReset salt) s = .next { s with
        key := none, authKey := none, phase := .uninitialized, outputs := s.outputs ++ [[0x01, 1, 0, 0, 0, st]] }) ∧
      (∀ sl, saltLen st = some sl → salt.length ≠ sl → exec (.encReset salt) s = .next { s with
        key := none, authKey := none, phase := .uninitialized, outputs := s.outputs ++ [[0x03, 0, 0, 0, 0]] }))

/-- R163: an Encryptor and a Decryptor given the same NEW: the Decryptor accepts the Encryptor's header with the same keys,
and gives back the plaintext, for aligned chunkings on both sides. Both units are built with the same primitives, which do
not fail. -/
def Obligations.EncryptorDecryptorRoundTrip : Prop :=
  ∀ (e0 d0 e d : State) (st : Byte) (sl : Nat) (password salt : Bytes) (xs : List Bytes),
    e0.role = .encryptor → d0.role = .decryptor → e0.prims = d0.prims →
    e0.primFails = false → d0.primFails = false →
    exec (.new st password) e0 = .next e → exec (.new st password) d0 = .next d →
    saltLen st = some sl → salt.length = sl → AlignedChunks xs → (xs.flatten.length + 15) / 16 ≤ 4294967295 →
    ∃ (header : Bytes) (e1 e2 d1 : State) (ys : List Bytes),
      exec (.encReset salt) e = .next e1 ∧ e1.outputs = e.outputs ++ [responseFrame .ok header] ∧
      runCommands (xs.map .encrypt) e1 = .next e2 ∧ e2.outputs = e1.outputs ++ ys.map (responseFrame .ok) ∧
      exec (.reset header) d = .next d1 ∧ d1.outputs = d.outputs ++ [responseFrame .ok []] ∧
      d1.key = e1.key ∧ d1.authKey = e1.authKey ∧
      ∀ zs : List Bytes, zs.flatten = ys.flatten → AlignedChunks zs →
        ∃ (d2 : State) (ws : List Bytes), runCommands (zs.map .decrypt) d1 = .next d2 ∧
          d2.outputs = d1.outputs ++ ws.map (responseFrame .ok) ∧ ws.flatten = xs.flatten

/-! ## The whole machine -/

/-- R20 "written by", and for a command whose primitives fail R179 as the model has it (logs 8, 9): what each command
leaves unchanged. Every command leaves the build parameters, the primitives' fault line, the events still to come and
the responses already delivered. -/
def Obligations.RegisterFrame : Prop :=
  ∀ (i : Instr) (s t : State), exec i s = .next t →
    (t.role = s.role ∧ t.prims = s.prims ∧ t.primFails = s.primFails ∧ t.inputs = s.inputs ∧
      ∃ f, t.outputs = s.outputs ++ [f]) ∧
    (match i with
      | .new _ _ => True
      | .hdrsz => t.phase = s.phase ∧ t.pw = s.pw ∧ t.strength = s.strength ∧ t.ctr = s.ctr ∧ t.key = s.key ∧
          t.authKey = s.authKey
      | .gpflag => t.phase = s.phase ∧ t.pw = s.pw ∧ t.strength = s.strength ∧ t.ctr = s.ctr ∧ t.key = s.key ∧
          t.authKey = s.authKey
      | .rdauth => t.phase = s.phase ∧ t.pw = s.pw ∧ t.strength = s.strength ∧ t.ctr = s.ctr ∧ t.key = s.key ∧
          t.authKey = s.authKey
      | .reset _ => t.pw = s.pw ∧ t.strength = s.strength ∧ (t.phase ≠ .ready → t.ctr = s.ctr)
      | .encReset _ => t.pw = s.pw ∧ t.strength = s.strength ∧ (t.phase ≠ .ready → t.ctr = s.ctr)
      | .decrypt _ => t.pw = s.pw ∧ t.strength = s.strength ∧
          (s.primFails = false → t.phase = s.phase ∧ t.key = s.key ∧ t.authKey = s.authKey)
      | .encrypt _ => t.pw = s.pw ∧ t.strength = s.strength ∧
          (s.primFails = false → t.phase = s.phase ∧ t.key = s.key ∧ t.authKey = s.authKey))

/-- R182, R183, R172, and R179 as the model's option has it (logs 8, 9): a command that answers anything but `OK`
leaves the state as it was, or (RESET and ENC_RESET, and any command whose primitives fail) that of R182 item 1, and
carries no data, or the one byte of R172. -/
def Obligations.FailuresArePrecise : Prop :=
  ∀ (i : Instr) (s t : State), exec i s = .next t →
    ∃ (e : Status) (d : Bytes), t.outputs = s.outputs ++ [responseFrame e d] ∧
      (e ≠ .ok →
        ({ t with outputs := s.outputs } = s ∨
          (((∃ x, i = .reset x ∨ i = .encReset x) ∨ e = .cipherFault) ∧
            { t with outputs := s.outputs } =
              { s with key := none, authKey := none, phase := .uninitialized })) ∧
        (d = [] ∨ (e = .unsupportedEncryption ∧ ∃ st, s.strength = some st ∧ d = [st])))

/-- R33: the next phase, by command and outcome, while the primitives do not fail. -/
def Obligations.PhaseTransitions : Prop :=
  ∀ (i : Instr) (s t : State), s.primFails = false → exec i s = .next t →
    (match i with
      | .new _ _ => t.phase = .uninitialized
      | .hdrsz => t.phase = s.phase
      | .gpflag => t.phase = s.phase
      | .rdauth => t.phase = s.phase
      | .decrypt _ => t.phase = s.phase
      | .encrypt _ => t.phase = s.phase
      | .reset _ =>
          if s.role = .encryptor ∨ s.phase = .unconfigured then t.phase = s.phase
          else (t.outputs = s.outputs ++ [responseFrame .ok []] ∧ t.phase = .ready) ∨
            (t.outputs ≠ s.outputs ++ [responseFrame .ok []] ∧ t.phase = .uninitialized)
      | .encReset _ =>
          if s.role = .decryptor ∨ s.phase = .unconfigured then t.phase = s.phase
          else ((∃ h, t.outputs = s.outputs ++ [responseFrame .ok h]) ∧ t.phase = .ready) ∨
            ((∀ h, t.outputs ≠ s.outputs ++ [responseFrame .ok h]) ∧ t.phase = .uninitialized))

/-- R24, and for a failing primitive the model's log 9 (CTR stays): what a command does to CTR: it stays, or becomes 0
(NEW, RESET, ENC_RESET), or grows by the steps of the chunk without wrapping (DECRYPT, ENCRYPT). -/
def Obligations.CounterNeverWraps : Prop :=
  ∀ (i : Instr) (s t : State), exec i s = .next t →
    t.ctr = s.ctr ∨
    (t.ctr = 0 ∧ ((∃ st p, i = .new st p) ∨ ∃ x, i = .reset x ∨ i = .encReset x)) ∨
    ∃ cin, (i = .decrypt cin ∨ i = .encrypt cin) ∧ t.ctr.toNat = s.ctr.toNat + (cin.length + 15) / 16

/-- R21, R22: over all steps, PW and STRENGTH change only by NEW and by a hardware reset. -/
def Obligations.OnlyNewWritesPassword : Prop :=
  ∀ s t : State, step s = .next t → (t.pw ≠ s.pw ∨ t.strength ≠ s.strength) →
    ∃ e rest, s.inputs = e :: rest ∧
      ((∃ a, e = .hardwareReset a) ∨
        ∃ f st p, e = .command f ∧ decode f = .ok (.new st p) ∧ t.pw = some p ∧ t.strength = some st)

/-- R25, R186: apart from DECRYPT and ENCRYPT, no answer depends on KEY: two states that differ only in KEY give the same
response, and stop alike. -/
def Obligations.AnswersDoNotDependOnKey : Prop :=
  ∀ (i : Instr) (s : State) (key : Option Bytes), (∀ cin, i ≠ .decrypt cin ∧ i ≠ .encrypt cin) →
    (∀ t, exec i s = .next t → ∃ t', exec i { s with key := key } = .next t' ∧ t'.outputs = t.outputs) ∧
    (∀ r, exec i s = .fault r → exec i { s with key := key } = .fault r)

/-- R171, R179: while the primitives do not fail, no command is answered `CipherFault`. -/
def Obligations.NoCipherFaultWithSoundPrimitives : Prop :=
  ∀ (i : Instr) (s t : State) (d : Bytes), s.primFails = false → exec i s = .next t →
    t.outputs ≠ s.outputs ++ [responseFrame .cipherFault d]

/-- R179, as the model's option has it (log 8, log 9): a command that calls a failing primitive is answered `CipherFault`
with no data and leaves the unit Uninitialized without keys. -/
def Obligations.FailingPrimitiveIsFatal : Prop :=
  ∀ s : State, s.primFails = true →
    (∀ hdr st sl, s.role = .decryptor → s.phase ≠ .unconfigured → s.strength = some st → saltLen st = some sl →
      hdr.length = sl + 2 → exec (.reset hdr) s = .next { s with
        key := none, authKey := none, phase := .uninitialized, outputs := s.outputs ++ [[0x08, 0, 0, 0, 0]] }) ∧
    (∀ salt st sl, s.role = .encryptor → s.phase ≠ .unconfigured → s.strength = some st → saltLen st = some sl →
      salt.length = sl → exec (.encReset salt) s = .next { s with
        key := none, authKey := none, phase := .uninitialized, outputs := s.outputs ++ [[0x08, 0, 0, 0, 0]] }) ∧
    (∀ i cin, TransformsChunk i cin s → s.phase = .ready → cin ≠ [] →
      s.ctr.toNat + (cin.length + 15) / 16 ≤ 4294967295 → exec i s = .next { s with
        key := none, authKey := none, phase := .uninitialized, outputs := s.outputs ++ [[0x08, 0, 0, 0, 0]] })

/-- R27: the invariants hold after hardware reset. -/
def Obligations.InvariantHoldsAtReset : Prop := Invariant State.reset

/-- R27: every step keeps the invariants. -/
def Obligations.InvariantKeptByEveryStep : Prop :=
  ∀ s t : State, Invariant s → step s = .next t → Invariant t

/-- R8, R27, R170, R182: in a state that meets the invariants one step does not stop: no rule reads a register that holds
no value, and the unit is at once ready for the next command. -/
def Obligations.EveryInvariantStateSteps : Prop :=
  ∀ s : State, Invariant s → SafeStep s

/-! ## The written-out primitives -/

/-- R130: PBKDF2 as the rule defines it, for an iteration count of at least 1. -/
def Obligations.StandardPbkdf2IsRuleR130 : Prop :=
  ∀ (password salt : Bytes) (c len : Nat), 1 ≤ c →
    let u1 (i : Nat) : Bytes := hmacSha1 password (salt ++ be 4 i)
    let u (i j : Nat) : Bytes := (fun x => hmacSha1 password x)^[j - 1] (u1 i)
    let t (i : Nat) : Bytes := (List.range (c - 1)).foldl (fun acc j => xorBytes acc (u i (j + 2))) (u i 1)
    pbkdf2Standard password salt c len =
      (((List.range ((len + 19) / 20)).map fun j => t (j + 1)).flatten).take len

/-- R131: HMAC-SHA1 as the rule defines it; an empty key is padded to 64 zero bytes. -/
def Obligations.StandardHmacIsRuleR131 : Prop :=
  (∀ k m : Bytes,
    let k' := (if k.length > 64 then sha1 k else k)
    let pad := k' ++ List.replicate (64 - k'.length) 0
    pad.length = 64 ∧
      hmacSha1 k m = sha1 (xorBytes pad (List.replicate 64 0x5c) ++ sha1 (xorBytes pad (List.replicate 64 0x36) ++ m))) ∧
  hmacKey [] = List.replicate 64 0
end

