-- ==== Sys2Proof/Laws/Bytes.lean ====
section
/-! SUPPORT. Byte-order helpers, slices, exclusive-or, the Parameter Table and the block lengths. -/

namespace Sys2Proof

@[simp] theorem le_length (k v : Nat) : (le k v).length = k := by
  induction k generalizing v with
  | zero => rfl
  | succ k ih => simp [le, ih]

@[simp] theorem be_length (k v : Nat) : (be k v).length = k := by simp [be]

/-- A little-endian field holds its value where the value fits. -/
theorem leNat_le (k v : Nat) (h : v < 256 ^ k) : leNat (le k v) = v := by
  induction k generalizing v with
  | zero => simp [le, leNat] at *; omega
  | succ k ih =>
    have hd : v / 256 < 256 ^ k := by
      rw [Nat.div_lt_iff_lt_mul (by decide)]; rwa [pow_succ] at h
    simp only [le, leNat, ih _ hd, BitVec.toNat_ofNat]
    omega

theorem leNat_lt (bs : Bytes) : leNat bs < 256 ^ bs.length := by
  induction bs with
  | nil => simp [leNat]
  | cons b bs ih =>
    have hb := b.isLt
    simp only [leNat, List.length_cons, pow_succ]
    omega

/-- A field written again from the value it holds is the same field. -/
theorem le_leNat (bs : Bytes) : le bs.length (leNat bs) = bs := by
  induction bs with
  | nil => rfl
  | cons b bs ih =>
    have hb := b.isLt
    have hdiv : (b.toNat + 256 * leNat bs) / 256 = leNat bs := by omega
    simp only [leNat, List.length_cons, le, hdiv, ih, List.cons.injEq, and_true]
    apply BitVec.eq_of_toNat_eq
    simp only [BitVec.toNat_ofNat]
    omega

/-- Two values that fit a field and have the same encoding are equal. -/
theorem le_injective {k v w : Nat} (hv : v < 256 ^ k) (hw : w < 256 ^ k) (h : le k v = le k w) : v = w := by
  rw [← leNat_le k v hv, ← leNat_le k w hw, h]

theorem opcodeOfByte_byte (op : Opcode) : opcodeOfByte op.byte = some op := by
  cases op <;> rfl

/-- Only a row's own byte selects it. -/
theorem byte_of_opcodeOfByte {b : Byte} {op : Opcode} (h : opcodeOfByte b = some op) : op.byte = b := by
  revert h; revert op; revert b; decide

namespace Machine

theorem memRead_length (space : Bytes) (off n : Nat) : (memRead space off n).length = min n (space.length - off) := by
  simp [memRead]

theorem memRead_length_of_le {space : Bytes} {off n : Nat} (h : off + n ≤ space.length) :
    (memRead space off n).length = n := by
  rw [memRead_length]; omega

/-- Writing at the end of what is written so far appends. -/
theorem memWrite_at_end (space v : Bytes) : memWrite space space.length v = space ++ v := by
  simp [memWrite]

@[simp] theorem xorBytes_length (x y : Bytes) : (xorBytes x y).length = min x.length y.length := by simp [xorBytes]

@[simp] theorem ctrBlock_length (n : Nat) : (ctrBlock n).length = 16 := by simp [ctrBlock]

/-- The three supported codes and their rows (R100). -/
theorem paramRow_cases {s : Byte} {row : StrengthRow} (h : paramRow s = some row) :
    (s = 1 ∧ row = ⟨128, 16, 8⟩) ∨ (s = 2 ∧ row = ⟨192, 24, 12⟩) ∨ (s = 3 ∧ row = ⟨256, 32, 16⟩) := by
  have key : ∀ s : Byte, paramRow s = none ∨ (s = 1 ∧ paramRow s = some ⟨128, 16, 8⟩) ∨
      (s = 2 ∧ paramRow s = some ⟨192, 24, 12⟩) ∨ (s = 3 ∧ paramRow s = some ⟨256, 32, 16⟩) := by decide
  rcases key s with hn | ⟨hs, hr⟩ | ⟨hs, hr⟩ | ⟨hs, hr⟩
  · rw [hn] at h; cases h
  · rw [hr] at h; cases h; exact .inl ⟨hs, rfl⟩
  · rw [hr] at h; cases h; exact .inr (.inl ⟨hs, rfl⟩)
  · rw [hr] at h; cases h; exact .inr (.inr ⟨hs, rfl⟩)

/-- The three parts of an entry are the whole entry, with a header RESET accepts the length of and a trailer of 10 bytes. -/
theorem cutEntry_parts {row : StrengthRow} {entry : Bytes} {p : EntryParts} (h : cutEntry row entry = some p) :
    p.header ++ p.payload ++ p.trailer = entry ∧ p.header.length = hdrLen row ∧
      p.payload.length + hdrLen row + 10 = entry.length ∧ p.trailer.length = 10 := by
  unfold cutEntry at h
  split at h
  · next hl =>
    simp only [Config.trailerLen] at hl
    cases h
    refine ⟨?_, ?_, ?_, ?_⟩
    · simp only [memRead, Config.trailerLen, List.drop_zero, List.append_assoc]
      rw [List.take_of_length_le (l := entry.drop (hdrLen row + _)) (by rw [List.length_drop]; omega), ← List.drop_drop,
        List.take_append_drop, List.take_append_drop]
    all_goals simp only [memRead_length, Config.trailerLen]; omega
  · cases h

/-- `stepCount` is the least number of 16-byte steps that covers the chunk. -/
theorem stepCount_spec (len : Nat) : len ≤ 16 * stepCount len ∧ 16 * stepCount len < len + 16 := by
  simp only [stepCount, Config.block]; omega

@[simp] theorem stepCount_zero : stepCount 0 = 0 := rfl

theorem stepCount_eq_zero {len : Nat} : stepCount len = 0 ↔ len = 0 := by
  simp only [stepCount, Config.block]; omega

/-- A chunk of whole blocks adds its own steps to those of what follows. -/
theorem stepCount_add {a b : Nat} (h : a % 16 = 0) : stepCount (a + b) = stepCount a + stepCount b := by
  simp only [stepCount, Config.block]; omega

/-- Responses are equal only where status and data are, for data a length field can hold. -/
theorem responseFrame_injective {st st' : Status} {d d' : Bytes} (h : responseFrame st d = responseFrame st' d') :
    st = st' ∧ d = d' := by
  simp only [responseFrame, List.cons.injEq] at h
  obtain ⟨hc, hd⟩ := h
  refine ⟨?_, (List.append_inj hd (by simp)).2⟩
  revert hc; cases st <;> cases st' <;> decide

end Machine

end Sys2Proof
end

