-- ==== Sys2Proof/Laws/Primitives.lean ====
section
/-! SUPPORT. The lengths of what the primitive functions give (spec/00_scope.md R9), for either choice of primitives. -/

namespace Sys2Proof.Machine

@[simp] theorem sha1_length (m : Bytes) : (sha1 m).length = 20 := by simp [sha1, sha1Bytes]

@[simp] theorem hmacSha1_length (k m : Bytes) : (hmacSha1 k m).length = 20 := by simp [hmacSha1]

theorem pbkdf2Iterate_length (password : Bytes) (n : Nat) (u t : Bytes) (ht : t.length = 20) :
    (pbkdf2Iterate password n u t).length = 20 := by
  induction n generalizing u t with
  | zero => simpa [pbkdf2Iterate] using ht
  | succ n ih => exact ih _ _ (by simp [ht])

@[simp] theorem pbkdf2Block_length (password salt : Bytes) (c i : Nat) : (pbkdf2Block password salt c i).length = 20 :=
  pbkdf2Iterate_length _ _ _ _ (by simp)

@[simp] theorem pbkdf2Standard_length (password salt : Bytes) (c len : Nat) :
    (pbkdf2Standard password salt c len).length = len := by
  simp only [pbkdf2Standard, List.length_take, List.length_flatten, List.map_map, Function.comp_def,
    pbkdf2Block_length, List.map_const', List.sum_replicate, List.length_range, smul_eq_mul]
  omega

@[simp] theorem aesAddKey_length (st rk : Bytes) : (aesAddKey st rk).length = 16 := by simp [aesAddKey]

theorem aesRun_length (rks : List Bytes) (st : Bytes) (h : st.length = 16) : (aesRun rks st).length = 16 := by
  induction rks generalizing st with
  | nil => simpa [aesRun] using h
  | cons rk rks ih =>
    cases rks with
    | nil => simp [aesRun]
    | cons rk' rks => exact ih _ (by simp)

@[simp] theorem aesEncrypt_length (key blk : Bytes) : (aesEncrypt key blk).length = 16 :=
  aesRun_length _ _ (by simp)

@[simp] theorem aesEnc_length (p : Primitives) (key blk : Bytes) : (aesEnc p key blk).length = 16 := by
  cases p <;> simp [aesEnc]

@[simp] theorem pbkdf2HmacSha1_length (p : Primitives) (password salt : Bytes) (c len : Nat) :
    (pbkdf2HmacSha1 p password salt c len).length = len := by
  cases p <;> simp [pbkdf2HmacSha1]

@[simp] theorem keystream_length (p : Primitives) (key : Bytes) (n : Nat) : (keystream p key n).length = 16 := by
  simp [keystream]

end Sys2Proof.Machine
end

