-- ==== Sys2Proof/Laws/State.lean ====
section
/-! SUPPORT. What each named update of State does to each field: one lemma per field and update, true by definition. -/

namespace Sys2Proof.Machine

@[simp] theorem respond_role (status : Status) (rdata : Bytes) (s : State) : (respond status rdata s).role = s.role := rfl
@[simp] theorem respond_prims (status : Status) (rdata : Bytes) (s : State) : (respond status rdata s).prims = s.prims := rfl
@[simp] theorem respond_phase (status : Status) (rdata : Bytes) (s : State) : (respond status rdata s).phase = s.phase := rfl
@[simp] theorem respond_pw (status : Status) (rdata : Bytes) (s : State) : (respond status rdata s).pw = s.pw := rfl
@[simp] theorem respond_strength (status : Status) (rdata : Bytes) (s : State) : (respond status rdata s).strength = s.strength := rfl
@[simp] theorem respond_ctr (status : Status) (rdata : Bytes) (s : State) : (respond status rdata s).ctr = s.ctr := rfl
@[simp] theorem respond_key (status : Status) (rdata : Bytes) (s : State) : (respond status rdata s).key = s.key := rfl
@[simp] theorem respond_authKey (status : Status) (rdata : Bytes) (s : State) : (respond status rdata s).authKey = s.authKey := rfl
@[simp] theorem respond_primFails (status : Status) (rdata : Bytes) (s : State) : (respond status rdata s).primFails = s.primFails := rfl
@[simp] theorem respond_inputs (status : Status) (rdata : Bytes) (s : State) : (respond status rdata s).inputs = s.inputs := rfl
@[simp] theorem respond_outputs (status : Status) (rdata : Bytes) (s : State) : (respond status rdata s).outputs = s.outputs ++ [responseFrame status rdata] := rfl

@[simp] theorem dropCipher_role (s : State) : (dropCipher s).role = s.role := rfl
@[simp] theorem dropCipher_prims (s : State) : (dropCipher s).prims = s.prims := rfl
@[simp] theorem dropCipher_phase (s : State) : (dropCipher s).phase = .uninitialized := rfl
@[simp] theorem dropCipher_pw (s : State) : (dropCipher s).pw = s.pw := rfl
@[simp] theorem dropCipher_strength (s : State) : (dropCipher s).strength = s.strength := rfl
@[simp] theorem dropCipher_ctr (s : State) : (dropCipher s).ctr = s.ctr := rfl
@[simp] theorem dropCipher_key (s : State) : (dropCipher s).key = none := rfl
@[simp] theorem dropCipher_authKey (s : State) : (dropCipher s).authKey = none := rfl
@[simp] theorem dropCipher_primFails (s : State) : (dropCipher s).primFails = s.primFails := rfl
@[simp] theorem dropCipher_inputs (s : State) : (dropCipher s).inputs = s.inputs := rfl
@[simp] theorem dropCipher_outputs (s : State) : (dropCipher s).outputs = s.outputs := rfl

@[simp] theorem arm_role (ek ak : Bytes) (s : State) : (arm ek ak s).role = s.role := rfl
@[simp] theorem arm_prims (ek ak : Bytes) (s : State) : (arm ek ak s).prims = s.prims := rfl
@[simp] theorem arm_phase (ek ak : Bytes) (s : State) : (arm ek ak s).phase = .ready := rfl
@[simp] theorem arm_pw (ek ak : Bytes) (s : State) : (arm ek ak s).pw = s.pw := rfl
@[simp] theorem arm_strength (ek ak : Bytes) (s : State) : (arm ek ak s).strength = s.strength := rfl
@[simp] theorem arm_ctr (ek ak : Bytes) (s : State) : (arm ek ak s).ctr = 0 := rfl
@[simp] theorem arm_key (ek ak : Bytes) (s : State) : (arm ek ak s).key = some ek := rfl
@[simp] theorem arm_authKey (ek ak : Bytes) (s : State) : (arm ek ak s).authKey = some ak := rfl
@[simp] theorem arm_primFails (ek ak : Bytes) (s : State) : (arm ek ak s).primFails = s.primFails := rfl
@[simp] theorem arm_inputs (ek ak : Bytes) (s : State) : (arm ek ak s).inputs = s.inputs := rfl
@[simp] theorem arm_outputs (ek ak : Bytes) (s : State) : (arm ek ak s).outputs = s.outputs := rfl

@[simp] theorem construct_role (strength : Byte) (password : Bytes) (s : State) : (construct strength password s).role = s.role := rfl
@[simp] theorem construct_prims (strength : Byte) (password : Bytes) (s : State) : (construct strength password s).prims = s.prims := rfl
@[simp] theorem construct_phase (strength : Byte) (password : Bytes) (s : State) : (construct strength password s).phase = .uninitialized := rfl
@[simp] theorem construct_pw (strength : Byte) (password : Bytes) (s : State) : (construct strength password s).pw = some password := rfl
@[simp] theorem construct_strength (strength : Byte) (password : Bytes) (s : State) : (construct strength password s).strength = some strength := rfl
@[simp] theorem construct_ctr (strength : Byte) (password : Bytes) (s : State) : (construct strength password s).ctr = 0 := rfl
@[simp] theorem construct_key (strength : Byte) (password : Bytes) (s : State) : (construct strength password s).key = none := rfl
@[simp] theorem construct_authKey (strength : Byte) (password : Bytes) (s : State) : (construct strength password s).authKey = none := rfl
@[simp] theorem construct_primFails (strength : Byte) (password : Bytes) (s : State) : (construct strength password s).primFails = s.primFails := rfl
@[simp] theorem construct_inputs (strength : Byte) (password : Bytes) (s : State) : (construct strength password s).inputs = s.inputs := rfl
@[simp] theorem construct_outputs (strength : Byte) (password : Bytes) (s : State) : (construct strength password s).outputs = s.outputs := rfl

@[simp] theorem hardReset_role (s : State) : (hardReset s).role = s.role := rfl
@[simp] theorem hardReset_prims (s : State) : (hardReset s).prims = s.prims := rfl
@[simp] theorem hardReset_phase (s : State) : (hardReset s).phase = .unconfigured := rfl
@[simp] theorem hardReset_pw (s : State) : (hardReset s).pw = none := rfl
@[simp] theorem hardReset_strength (s : State) : (hardReset s).strength = none := rfl
@[simp] theorem hardReset_ctr (s : State) : (hardReset s).ctr = 0 := rfl
@[simp] theorem hardReset_key (s : State) : (hardReset s).key = none := rfl
@[simp] theorem hardReset_authKey (s : State) : (hardReset s).authKey = none := rfl
@[simp] theorem hardReset_primFails (s : State) : (hardReset s).primFails = s.primFails := rfl
@[simp] theorem hardReset_inputs (s : State) : (hardReset s).inputs = s.inputs := rfl
@[simp] theorem hardReset_outputs (s : State) : (hardReset s).outputs = s.outputs := rfl

@[simp] theorem placeFrame_role (f : Frame) (s : State) : (placeFrame f s).role = roleForFrame f s.role := rfl
@[simp] theorem placeFrame_prims (f : Frame) (s : State) : (placeFrame f s).prims = s.prims := rfl
@[simp] theorem placeFrame_phase (f : Frame) (s : State) : (placeFrame f s).phase = s.phase := rfl
@[simp] theorem placeFrame_pw (f : Frame) (s : State) : (placeFrame f s).pw = s.pw := rfl
@[simp] theorem placeFrame_strength (f : Frame) (s : State) : (placeFrame f s).strength = s.strength := rfl
@[simp] theorem placeFrame_ctr (f : Frame) (s : State) : (placeFrame f s).ctr = s.ctr := rfl
@[simp] theorem placeFrame_key (f : Frame) (s : State) : (placeFrame f s).key = s.key := rfl
@[simp] theorem placeFrame_authKey (f : Frame) (s : State) : (placeFrame f s).authKey = s.authKey := rfl
@[simp] theorem placeFrame_primFails (f : Frame) (s : State) : (placeFrame f s).primFails = s.primFails := rfl
@[simp] theorem placeFrame_inputs (f : Frame) (s : State) : (placeFrame f s).inputs = .command f :: s.inputs := rfl
@[simp] theorem placeFrame_outputs (f : Frame) (s : State) : (placeFrame f s).outputs = s.outputs := rfl

end Sys2Proof.Machine
end

