-- ==== Sys2Proof/Laws/Ops.lean ====
section
/-! SUPPORT. One lemma per shared operation that says everything it can do, for later proofs to cite instead of unfolding
it. -/

namespace Sys2Proof.Machine

@[simp] theorem answerOk_eq (rdata : Bytes) (s : State) : answerOk rdata s = .next (respond .ok rdata s) := rfl

@[simp] theorem raise_eq (e : Status) (info : Bytes) (s : State) : raise e info s = .next (respond e info s) := rfl

@[simp] theorem failReset_eq (e : Status) (info : Bytes) (s : State) :
    failReset e info s = .next (respond e info (dropCipher s)) := rfl

@[simp] theorem cipherFault_eq (s : State) : cipherFault s = .next (respond .cipherFault [] (dropCipher s)) := rfl

@[simp] theorem whenRole_self {role : Role} {s : State} {k : Result} (h : s.role = role) : whenRole role s k = k :=
  if_pos h

@[simp] theorem whenConfigured_of_ne {s : State} {k : Result} (h : s.phase ≠ .unconfigured) :
    whenConfigured s k = k := if_neg h

@[simp] theorem whenReady_of_ready {s : State} {k : Result} (h : s.phase = .ready) : whenReady s k = k := by
  simp [whenReady, whenConfigured, h]

@[simp] theorem readReg_some {α : Type} (r : OptReg) (x : α) (k : α → Result) : readReg r (some x) k = k x := rfl

@[simp] theorem readReg_none {α : Type} (r : OptReg) (k : α → Result) :
    readReg r none k = .fault (.noValue r) := rfl

theorem whenRole_cases (role : Role) (s : State) (k : Result) :
    (s.role = role ∧ whenRole role s k = k) ∨
    (s.role ≠ role ∧ whenRole role s k = .next (respond .illegalCommand [] s)) := by
  by_cases h : s.role = role
  · exact .inl ⟨h, if_pos h⟩
  · exact .inr ⟨h, if_neg h⟩

theorem whenConfigured_cases (s : State) (k : Result) :
    (s.phase = .unconfigured ∧ whenConfigured s k = .next (respond .notConfigured [] s)) ∨
    (s.phase ≠ .unconfigured ∧ whenConfigured s k = k) := by
  by_cases h : s.phase = .unconfigured
  · exact .inl ⟨h, if_pos h⟩
  · exact .inr ⟨h, if_neg h⟩

theorem whenReady_cases (s : State) (k : Result) :
    (s.phase = .unconfigured ∧ whenReady s k = .next (respond .notConfigured [] s)) ∨
    (s.phase = .uninitialized ∧ whenReady s k = .next (respond .notReady [] s)) ∨
    (s.phase = .ready ∧ whenReady s k = k) := by
  cases h : s.phase <;> simp [whenReady, whenConfigured, h]

/-- Everything `withDerivedKeys` can do (R120 steps 1 to 4, R161, R181). -/
theorem withDerivedKeys_cases (operand : Bytes) (len : StrengthRow → Nat) (s : State)
    (k : StrengthRow → Bytes → DerivedKeys → Result) :
    let r := withDerivedKeys operand len s k
    (s.phase = .unconfigured ∧ r = .next (respond .notConfigured [] s)) ∨
    (s.phase ≠ .unconfigured ∧ s.strength = none ∧ r = .fault (.noValue .strength)) ∨
    (s.phase ≠ .unconfigured ∧ ∃ st, s.strength = some st ∧
      ((paramRow st = none ∧ r = .next (respond .unsupportedEncryption [st] (dropCipher s))) ∨
       ∃ row, paramRow st = some row ∧
        ((operand.length ≠ len row ∧ r = .next (respond .headerLength [] (dropCipher s))) ∨
         (operand.length = len row ∧ s.primFails = true ∧ r = .next (respond .cipherFault [] (dropCipher s))) ∨
         (operand.length = len row ∧ s.primFails = false ∧ s.pw = none ∧ r = .fault (.noValue .pw)) ∨
         (operand.length = len row ∧ s.primFails = false ∧ ∃ password, s.pw = some password ∧
            r = k row (memRead operand 0 row.saltBytes)
              (deriveKeys s.prims password (memRead operand 0 row.saltBytes) row))))) := by
  intro r
  rcases whenConfigured_cases s (readReg .strength s.strength fun st =>
      match paramRow st with
      | none => failReset .unsupportedEncryption [st] s
      | some row =>
        if operand.length = len row then
          if s.primFails then cipherFault s
          else
            readReg .pw s.pw fun password =>
              let salt := memRead operand 0 row.saltBytes
              k row salt (deriveKeys s.prims password salt row)
        else failReset .headerLength [] s) with ⟨hp, hr⟩ | ⟨hp, hr⟩
  · exact .inl ⟨hp, hr⟩
  · replace hr : r = _ := hr
    cases hst : s.strength with
    | none => exact .inr (.inl ⟨hp, rfl, by rw [hr, hst]; rfl⟩)
    | some st =>
      refine .inr (.inr ⟨hp, st, rfl, ?_⟩)
      rw [hst, readReg_some] at hr
      cases hrow : paramRow st with
      | none => exact .inl ⟨rfl, by rw [hr, hrow]; rfl⟩
      | some row =>
        refine .inr ⟨row, rfl, ?_⟩
        simp only [hrow] at hr
        by_cases hl : operand.length = len row
        · rw [if_pos hl] at hr
          cases hf : s.primFails with
          | true => exact .inr (.inl ⟨hl, rfl, by simpa [hf] using hr⟩)
          | false =>
            cases hpw : s.pw with
            | none => exact .inr (.inr (.inl ⟨hl, rfl, rfl, by simpa [hf, hpw] using hr⟩))
            | some password => exact .inr (.inr (.inr ⟨hl, rfl, password, rfl, by simpa [hf, hpw] using hr⟩))
        · exact .inl ⟨hl, by rw [hr, if_neg hl]; rfl⟩

/-- `withDerivedKeys` where nothing fails. -/
theorem withDerivedKeys_ok {operand : Bytes} {len : StrengthRow → Nat} {s : State}
    {k : StrengthRow → Bytes → DerivedKeys → Result} {st : Byte} {row : StrengthRow} {password : Bytes}
    (hp : s.phase ≠ .unconfigured) (hst : s.strength = some st) (hrow : paramRow st = some row)
    (hl : operand.length = len row) (hf : s.primFails = false) (hpw : s.pw = some password) :
    withDerivedKeys operand len s k =
      k row (memRead operand 0 row.saltBytes) (deriveKeys s.prims password (memRead operand 0 row.saltBytes) row) := by
  simp [withDerivedKeys, hp, hst, hrow, hl, hf, hpw]

/-- The regions of the derived material have the lengths of R54. -/
theorem deriveKeys_lengths (p : Primitives) (password salt : Bytes) (row : StrengthRow) :
    (deriveKeys p password salt row).encKey.length = row.keyBytes ∧
    (deriveKeys p password salt row).authKey.length = row.keyBytes ∧
    (deriveKeys p password salt row).verifier.length = 2 := by
  simp only [deriveKeys, splitDk, memRead_length, pbkdf2HmacSha1_length, dkLen, Config.verifierLen]
  omega

/-- The regions are disjoint and together are the whole of the derived material (R124). -/
theorem deriveKeys_append (p : Primitives) (password salt : Bytes) (row : StrengthRow) :
    (deriveKeys p password salt row).encKey ++ (deriveKeys p password salt row).authKey =
      (pbkdf2HmacSha1 p password salt Config.iter (dkLen row)).take (2 * row.keyBytes) := by
  simp only [deriveKeys, splitDk, memRead, List.drop_zero]
  rw [Nat.two_mul, List.take_add]

end Sys2Proof.Machine
end

