-- ==== Sys2Proof/Laws/Transform.lean ====
section
/-! SUPPORT. The counter-mode loop against its byte-wise form (spec/43_decrypt.md R140 against R147), and what
`transformChunk` can do. -/

namespace Sys2Proof.Machine

@[simp] theorem streamXor_length (p : Primitives) (key : Bytes) (c : Nat) (cin : Bytes) :
    (streamXor p key c cin).length = cin.length := by simp [streamXor]

@[simp] theorem streamXor_nil (p : Primitives) (key : Bytes) (c : Nat) : streamXor p key c [] = [] := rfl

theorem streamXor_getElem (p : Primitives) (key : Bytes) (c : Nat) (cin : Bytes) (j : Nat)
    (h : j < (streamXor p key c cin).length) :
    (streamXor p key c cin)[j] =
      cin[j]'(by simpa using h) ^^^ (keystream p key (c + j / 16)).getD (j % 16) 0 := by
  simp [streamXor]

/-- The transform of a string that begins with whole blocks. -/
theorem streamXor_append (p : Primitives) (key : Bytes) (c : Nat) (x y : Bytes) (hx : x.length % 16 = 0) :
    streamXor p key c (x ++ y) = streamXor p key c x ++ streamXor p key (c + x.length / 16) y := by
  simp only [streamXor, List.mapIdx_append]
  congr 2
  funext j b
  rw [show c + (j + x.length) / 16 = c + x.length / 16 + j / 16 by omega,
    show (j + x.length) % 16 = j % 16 by omega]

/-- One block of at most 16 bytes meets the first bytes of one keystream block (R144). -/
theorem streamXor_block (p : Primitives) (key : Bytes) (c : Nat) (x : Bytes) (hx : x.length ≤ 16) :
    streamXor p key c x = xorBytes x ((keystream p key c).take x.length) := by
  apply List.ext_getElem
  · simp; omega
  · intro j h₁ h₂
    have hj : j < x.length := by simpa using h₁
    rw [streamXor_getElem, Nat.div_eq_of_lt (by omega), Nat.mod_eq_of_lt (by omega), Nat.add_zero]
    simp [xorBytes, List.getD_eq_getElem?_getD, show j < 16 by omega]

/-- A transform is undone by the same transform (R151). -/
theorem streamXor_involutive (p : Primitives) (key : Bytes) (c : Nat) (x : Bytes) :
    streamXor p key c (streamXor p key c x) = x := by
  apply List.ext_getElem
  · simp
  · intro j h₁ h₂
    rw [streamXor_getElem, streamXor_getElem, BitVec.xor_assoc, BitVec.xor_self, BitVec.xor_zero]

/-- The loop adds one to the counter for each step (R24). -/
theorem transformLoop_ctr (p : Primitives) (key cin : Bytes) (n i ctr : Nat) (cout : Bytes) :
    (transformLoop p key cin n i ctr cout).1 = ctr + n := by
  induction n generalizing i ctr cout with
  | zero => rfl
  | succ n ih => simp only [transformLoop, ih]; omega

/-- From step `i` on, the loop appends the transform of the rest of the chunk. -/
theorem transformLoop_cout (p : Primitives) (key cin : Bytes) (n i ctr : Nat) (cout : Bytes)
    (hn : n = stepCount (cin.length - 16 * i)) (hc : n ≠ 0 → cout.length = 16 * i) :
    (transformLoop p key cin n i ctr cout).2 = cout ++ streamXor p key ctr (cin.drop (16 * i)) := by
  induction n generalizing i ctr cout with
  | zero =>
    have h0 := stepCount_eq_zero.mp hn.symm
    simp [transformLoop, List.drop_eq_nil_of_le (show cin.length ≤ 16 * i by omega)]
  | succ n ih =>
    have hlen : cout.length = 16 * i := hc (by omega)
    have hspec := stepCount_spec (cin.length - 16 * i)
    rw [← hn] at hspec
    have hblk : memRead cin (16 * i) (blockLen cin.length i) = (cin.drop (16 * i)).take 16 := by
      rw [memRead, blockLen, Config.block, ← List.length_drop, List.take_eq_take_iff]; omega
    have hm : blockLen cin.length i = ((cin.drop (16 * i)).take 16).length := by
      simp [blockLen, Config.block]
    have hrest : cin.drop (16 * (i + 1)) = (cin.drop (16 * i)).drop 16 := by
      rw [List.drop_drop]; congr 1
    have hstream : streamXor p key ctr (cin.drop (16 * i)) =
        xorBytes ((cin.drop (16 * i)).take 16) ((keystream p key ctr).take ((cin.drop (16 * i)).take 16).length) ++
          streamXor p key (ctr + 1) (cin.drop (16 * (i + 1))) := by
      rw [← streamXor_block p key ctr _ (by simp), hrest]
      by_cases hfull : 16 ≤ (cin.drop (16 * i)).length
      · have h16 : ((cin.drop (16 * i)).take 16).length = 16 := by
          rw [List.length_take]; omega
        conv_lhs => rw [← List.take_append_drop 16 (cin.drop (16 * i))]
        rw [streamXor_append _ _ _ _ _ (by rw [h16]), h16]
      · have hle : (cin.drop (16 * i)).length ≤ 16 := by omega
        rw [List.take_of_length_le hle, List.drop_eq_nil_of_le hle, streamXor_nil, List.append_nil]
    have hwrite : ∀ v, memWrite cout (16 * i) v = cout ++ v := by
      intro v; rw [← hlen]; exact memWrite_at_end cout v
    simp only [transformLoop, Config.block, hwrite, hblk]
    rw [ih (i + 1) (ctr + 1) _ ?_ ?_, List.append_assoc, hstream, hm]
    · have := stepCount_spec (cin.length - 16 * (i + 1)); omega
    · intro hne
      rw [List.length_append, hlen, xorBytes_length, List.length_take, List.length_take, List.length_drop, hm,
        List.length_take, List.length_drop, keystream_length]
      omega

/-- The whole loop of a command: the new counter and the output. -/
theorem transformLoop_eq (p : Primitives) (key cin : Bytes) (c : Nat) :
    transformLoop p key cin (stepCount cin.length) 0 c [] = (c + stepCount cin.length, streamXor p key c cin) := by
  refine Prod.ext (transformLoop_ctr _ _ _ _ _ _ _) ?_
  rw [transformLoop_cout _ _ _ _ _ _ _ (by simp) (by simp)]
  simp

/-- Everything `transformChunk` can do (R140, R162, R181). -/
theorem transformChunk_cases (cin : Bytes) (s : State) :
    let r := transformChunk cin s
    (s.phase = .unconfigured ∧ r = .next (respond .notConfigured [] s)) ∨
    (s.phase = .uninitialized ∧ r = .next (respond .notReady [] s)) ∨
    (s.phase = .ready ∧
      ((s.ctr.toNat + stepCount cin.length > Config.ctrMax ∧ r = .next (respond .counterOverflow [] s)) ∨
       (s.ctr.toNat + stepCount cin.length ≤ Config.ctrMax ∧
        ((cin = [] ∧ r = .next (respond .ok [] s)) ∨
         (cin ≠ [] ∧ s.primFails = true ∧ r = .next (respond .cipherFault [] (dropCipher s))) ∨
         (cin ≠ [] ∧ s.primFails = false ∧ s.key = none ∧ r = .fault (.noValue .key)) ∨
         (cin ≠ [] ∧ s.primFails = false ∧ ∃ key, s.key = some key ∧
            r = .next (respond .ok (streamXor s.prims key s.ctr.toNat cin)
              { s with ctr := BitVec.ofNat 32 (s.ctr.toNat + stepCount cin.length) })))))) := by
  intro r
  rcases whenReady_cases s
    (let steps := stepCount cin.length
     if s.ctr.toNat + steps > Config.ctrMax then raise .counterOverflow [] s
     else if steps = 0 then answerOk [] s
     else if s.primFails then cipherFault s
     else
      readReg .key s.key fun key =>
        let r := transformLoop s.prims key cin steps 0 s.ctr.toNat []
        answerOk r.2 { s with ctr := BitVec.ofNat 32 r.1 }) with ⟨hp, hr⟩ | ⟨hp, hr⟩ | ⟨hp, hr⟩
  · exact .inl ⟨hp, hr⟩
  · exact .inr (.inl ⟨hp, hr⟩)
  · replace hr : r = _ := hr
    refine .inr (.inr ⟨hp, ?_⟩)
    by_cases hov : s.ctr.toNat + stepCount cin.length > Config.ctrMax
    · exact .inl ⟨hov, by rw [hr]; exact if_pos hov⟩
    · refine .inr ⟨by omega, ?_⟩
      simp only [if_neg hov] at hr
      by_cases hnil : cin = []
      · exact .inl ⟨hnil, by simpa [hnil] using hr⟩
      · have hs : stepCount cin.length ≠ 0 := by
          rw [Ne, stepCount_eq_zero, List.length_eq_zero_iff]; exact hnil
        rw [if_neg hs] at hr
        cases hf : s.primFails with
        | true => exact .inr (.inl ⟨hnil, rfl, by simpa [hf] using hr⟩)
        | false =>
          cases hk : s.key with
          | none => exact .inr (.inr (.inl ⟨hnil, rfl, rfl, by simpa [hf, hk] using hr⟩))
          | some key =>
            exact .inr (.inr (.inr ⟨hnil, rfl, key, rfl, by simpa [hf, hk, transformLoop_eq] using hr⟩))

/-- `transformChunk` where nothing fails, the empty chunk included. -/
theorem transformChunk_ok {cin : Bytes} {s : State} {key : Bytes} (hp : s.phase = .ready) (hk : s.key = some key)
    (hf : s.primFails = false) (hc : s.ctr.toNat + stepCount cin.length ≤ Config.ctrMax) :
    transformChunk cin s = .next (respond .ok (streamXor s.prims key s.ctr.toNat cin)
      { s with ctr := BitVec.ofNat 32 (s.ctr.toNat + stepCount cin.length) }) := by
  rcases transformChunk_cases cin s with ⟨h, _⟩ | ⟨h, _⟩ | ⟨_, ⟨h, _⟩ | ⟨_, hr⟩⟩
  · rw [hp] at h; cases h
  · rw [hp] at h; cases h
  · omega
  · rcases hr with ⟨hn, hr⟩ | ⟨_, h, _⟩ | ⟨_, _, h, _⟩ | ⟨_, _, key', h, hr⟩
    · subst hn; rw [hr]; simp
    · rw [hf] at h; cases h
    · rw [hk] at h; cases h
    · rw [hk] at h; cases h; exact hr

end Sys2Proof.Machine
end

