-- ==== Sys2Proof/Laws/Exec.lean ====
section
/-! SUPPORT. What a command can answer: one inversion lemma over `exec`, from which later proofs derive frames and
invariants without unfolding the meanings. -/

namespace Sys2Proof.Machine

/-- The commands that need a constructed unit (spec/60_exceptions.md R176): all but NEW and GPFLAG. -/
def NeedsConfigured : Instr → Prop
  | .new _ _ => False
  | .gpflag => False
  | .hdrsz => True
  | .reset _ => True
  | .decrypt _ => True
  | .rdauth => True
  | .encReset _ => True
  | .encrypt _ => True

/-- `i` is the derivation from this operand of a required length, legal for the role of `s`. -/
def IsDerivation (i : Instr) (operand : Bytes) (len : StrengthRow → Nat) (s : State) : Prop :=
  (i = .reset operand ∧ len = hdrLen ∧ s.role = .decryptor) ∨
  (i = .encReset operand ∧ len = (·.saltBytes) ∧ s.role = .encryptor)

/-- `Answered i s e d u`: the command `i` in state `s` is answered with status `e` and data `d`, and `u` is the state
with the registers the command then writes. -/
inductive Answered : Instr → State → Status → Bytes → State → Prop
  | constructed (st pw s) : Answered (.new st pw) s .ok [] (construct st pw s)
  | wrongRole (i : Instr) (s : State) (h : i.opcode.legalFor s.role = false) : Answered i s .illegalCommand [] s
  | notConfigured (i : Instr) (s : State) (hi : NeedsConfigured i) (hp : s.phase = .unconfigured) :
      Answered i s .notConfigured [] s
  | headerSize (s : State) (st row) (hp : s.phase ≠ .unconfigured) (hst : s.strength = some st)
      (hrow : paramRow st = some row) : Answered .hdrsz s .ok [BitVec.ofNat 8 (hdrLen row)] s
  | unsupportedQuery (s : State) (st) (hp : s.phase ≠ .unconfigured) (hst : s.strength = some st)
      (hrow : paramRow st = none) : Answered .hdrsz s .unsupportedEncryption [st] s
  | flagValue (s : State) : Answered .gpflag s .ok (le 2 Config.gpFlag) s
  | notReady (i : Instr) (s : State) (hi : i = .rdauth ∨ ∃ cin, TransformsChunk i cin s)
      (hp : s.phase = .uninitialized) : Answered i s .notReady [] s
  | authKeyRead (s : State) (ak) (hp : s.phase = .ready) (hk : s.authKey = some ak) : Answered .rdauth s .ok ak s
  | counterOverflow (i : Instr) (cin : Bytes) (s : State) (hi : TransformsChunk i cin s) (hp : s.phase = .ready)
      (hc : s.ctr.toNat + stepCount cin.length > Config.ctrMax) : Answered i s .counterOverflow [] s
  | emptyChunk (i : Instr) (s : State) (hi : TransformsChunk i [] s) (hp : s.phase = .ready) : Answered i s .ok [] s
  | transformFault (i : Instr) (cin : Bytes) (s : State) (hi : TransformsChunk i cin s) (hp : s.phase = .ready)
      (hf : s.primFails = true) : Answered i s .cipherFault [] (dropCipher s)
  | transformed (i : Instr) (cin key out : Bytes) (s : State) (hi : TransformsChunk i cin s) (hp : s.phase = .ready)
      (hc : s.ctr.toNat + stepCount cin.length ≤ Config.ctrMax) (hf : s.primFails = false) (hk : s.key = some key)
      (ho : out = streamXor s.prims key s.ctr.toNat cin) :
      Answered i s .ok out
        { s with ctr := BitVec.ofNat 32 (s.ctr.toNat + stepCount cin.length) }
  | unsupportedReset (i : Instr) (operand : Bytes) (len) (s : State) (st) (hi : IsDerivation i operand len s)
      (hp : s.phase ≠ .unconfigured) (hst : s.strength = some st) (hrow : paramRow st = none) :
      Answered i s .unsupportedEncryption [st] (dropCipher s)
  | headerLength (i : Instr) (operand : Bytes) (len) (s : State) (st row) (hi : IsDerivation i operand len s)
      (hp : s.phase ≠ .unconfigured) (hst : s.strength = some st) (hrow : paramRow st = some row)
      (hl : operand.length ≠ len row) : Answered i s .headerLength [] (dropCipher s)
  | deriveFault (i : Instr) (operand : Bytes) (len) (s : State) (hi : IsDerivation i operand len s)
      (hp : s.phase ≠ .unconfigured) (hf : s.primFails = true) : Answered i s .cipherFault [] (dropCipher s)
  | badPassword (hdr : Bytes) (s : State) (st row pw) (hr : s.role = .decryptor) (hp : s.phase ≠ .unconfigured)
      (hst : s.strength = some st) (hrow : paramRow st = some row) (hl : hdr.length = hdrLen row)
      (hpw : s.pw = some pw)
      (hv : (deriveKeys s.prims pw (memRead hdr 0 row.saltBytes) row).verifier ≠ memRead hdr row.saltBytes 2) :
      Answered (.reset hdr) s .badPassword [] (dropCipher s)
  | verified (hdr : Bytes) (s : State) (st row pw) (hr : s.role = .decryptor) (hp : s.phase ≠ .unconfigured)
      (hst : s.strength = some st) (hrow : paramRow st = some row) (hl : hdr.length = hdrLen row)
      (hf : s.primFails = false) (hpw : s.pw = some pw)
      (hv : (deriveKeys s.prims pw (memRead hdr 0 row.saltBytes) row).verifier = memRead hdr row.saltBytes 2) :
      Answered (.reset hdr) s .ok []
        (arm (deriveKeys s.prims pw (memRead hdr 0 row.saltBytes) row).encKey
          (deriveKeys s.prims pw (memRead hdr 0 row.saltBytes) row).authKey s)
  | produced (salt : Bytes) (s : State) (st row pw) (hr : s.role = .encryptor) (hp : s.phase ≠ .unconfigured)
      (hst : s.strength = some st) (hrow : paramRow st = some row) (hl : salt.length = row.saltBytes)
      (hf : s.primFails = false) (hpw : s.pw = some pw) (hout : Bytes)
      (ho : hout = salt ++ (deriveKeys s.prims pw salt row).verifier) :
      Answered (.encReset salt) s .ok hout
        (arm (deriveKeys s.prims pw salt row).encKey (deriveKeys s.prims pw salt row).authKey s)

theorem memRead_whole {operand : Bytes} {n : Nat} (h : operand.length = n) : memRead operand 0 n = operand := by
  simp [memRead, ← h]

/-- The header handed back: the salt, then the verifier. -/
theorem header_assembled {salt v : Bytes} {n : Nat} (h : salt.length = n) :
    memWrite (memWrite [] 0 (memRead salt 0 n)) n v = salt ++ v := by
  rw [memRead_whole h]
  have h0 : memWrite [] 0 salt = salt := by simp [memWrite]
  rw [h0, ← h, memWrite_at_end]

/-- RESET where its checks before the verifier pass (R120 steps 3 to 6). -/
theorem exec_reset_verifies {hdr password : Bytes} {s : State} {st : Byte} {row : StrengthRow}
    (hr : s.role = .decryptor) (hp : s.phase ≠ .unconfigured) (hst : s.strength = some st)
    (hrow : paramRow st = some row) (hl : hdr.length = hdrLen row) (hf : s.primFails = false)
    (hpw : s.pw = some password) {keys : DerivedKeys}
    (hkeys : keys = deriveKeys s.prims password (memRead hdr 0 row.saltBytes) row) :
    (keys.verifier = memRead hdr row.saltBytes 2 →
      exec (.reset hdr) s = .next (respond .ok [] (arm keys.encKey keys.authKey s))) ∧
    (keys.verifier ≠ memRead hdr row.saltBytes 2 →
      exec (.reset hdr) s = .next (respond .badPassword [] (dropCipher s))) := by
  subst hkeys
  simp only [exec, execReset, whenRole_self hr]
  rw [withDerivedKeys_ok hp hst hrow hl hf hpw]
  exact ⟨fun hv => if_pos hv, fun hv => if_neg hv⟩

/-- ENC_RESET where nothing fails (R161). -/
theorem exec_encReset_produces {salt password : Bytes} {s : State} {st : Byte} {row : StrengthRow}
    (hr : s.role = .encryptor) (hp : s.phase ≠ .unconfigured) (hst : s.strength = some st)
    (hrow : paramRow st = some row) (hl : salt.length = row.saltBytes) (hf : s.primFails = false)
    (hpw : s.pw = some password) {keys : DerivedKeys} (hkeys : keys = deriveKeys s.prims password salt row) :
    exec (.encReset salt) s = .next (respond .ok (salt ++ keys.verifier) (arm keys.encKey keys.authKey s)) := by
  subst hkeys
  simp only [exec, execEncReset, whenRole_self hr]
  rw [withDerivedKeys_ok hp hst hrow hl hf hpw, header_assembled hl, memRead_whole hl]
  rfl

/-- A transform legal for the role is the shared body. -/
theorem exec_transform {i : Instr} {cin : Bytes} {s : State} (hi : TransformsChunk i cin s) :
    exec i s = transformChunk cin s := by
  rcases hi with ⟨rfl, h⟩ | ⟨rfl, h⟩
  · simp only [exec, execDecrypt, whenRole_self h]
  · simp only [exec, execEncrypt, whenRole_self h]

/-- What a transform answers. -/
theorem transform_answered {i : Instr} {cin : Bytes} {s t : State} (hi : TransformsChunk i cin s)
    (h : transformChunk cin s = .next t) : ∃ e d u, Answered i s e d u ∧ t = respond e d u := by
  have hn : NeedsConfigured i := by rcases hi with ⟨rfl, _⟩ | ⟨rfl, _⟩ <;> trivial
  rcases transformChunk_cases cin s with ⟨hp, hr⟩ | ⟨hp, hr⟩ | ⟨hp, ⟨hc, hr⟩ | ⟨hc, hr⟩⟩
  · rw [hr] at h; cases h; exact ⟨_, _, _, .notConfigured i s hn hp, rfl⟩
  · rw [hr] at h; cases h; exact ⟨_, _, _, .notReady i s (.inr ⟨cin, hi⟩) hp, rfl⟩
  · rw [hr] at h; cases h; exact ⟨_, _, _, .counterOverflow i cin s hi hp hc, rfl⟩
  · rcases hr with ⟨rfl, hr⟩ | ⟨_, hf, hr⟩ | ⟨_, _, _, hr⟩ | ⟨_, hf, key, hk, hr⟩
    · rw [hr] at h; cases h; exact ⟨_, _, _, .emptyChunk i s hi hp, rfl⟩
    · rw [hr] at h; cases h; exact ⟨_, _, _, .transformFault i cin s hi hp hf, rfl⟩
    · rw [hr] at h; cases h
    · rw [hr] at h; cases h; exact ⟨_, _, _, .transformed i cin key _ s hi hp hc hf hk rfl, rfl⟩

/-- What a derivation answers, given what its last part answers. -/
theorem derivation_answered {i : Instr} {operand : Bytes} {len : StrengthRow → Nat} {s t : State}
    {k : StrengthRow → Bytes → DerivedKeys → Result} (hi : IsDerivation i operand len s)
    (h : withDerivedKeys operand len s k = .next t)
    (hk : ∀ st row pw, s.phase ≠ .unconfigured → s.strength = some st → paramRow st = some row →
      operand.length = len row → s.primFails = false → s.pw = some pw →
      k row (memRead operand 0 row.saltBytes) (deriveKeys s.prims pw (memRead operand 0 row.saltBytes) row) = .next t →
      ∃ e d u, Answered i s e d u ∧ t = respond e d u) :
    ∃ e d u, Answered i s e d u ∧ t = respond e d u := by
  have hn : NeedsConfigured i := by rcases hi with ⟨rfl, _⟩ | ⟨rfl, _⟩ <;> trivial
  rcases withDerivedKeys_cases operand len s k with
    ⟨hp, hr⟩ | ⟨_, _, hr⟩ | ⟨hp, st, hst, ⟨hrow, hr⟩ | ⟨row, hrow, hr⟩⟩
  · rw [hr] at h; cases h; exact ⟨_, _, _, .notConfigured i s hn hp, rfl⟩
  · rw [hr] at h; cases h
  · rw [hr] at h; cases h; exact ⟨_, _, _, .unsupportedReset i operand len s st hi hp hst hrow, rfl⟩
  · rcases hr with ⟨hl, hr⟩ | ⟨_, hf, hr⟩ | ⟨_, _, _, hr⟩ | ⟨hl, hf, pw, hpw, hr⟩
    · rw [hr] at h; cases h; exact ⟨_, _, _, .headerLength i operand len s st row hi hp hst hrow hl, rfl⟩
    · rw [hr] at h; cases h; exact ⟨_, _, _, .deriveFault i operand len s hi hp hf, rfl⟩
    · rw [hr] at h; cases h
    · rw [hr] at h; exact hk st row pw hp hst hrow hl hf hpw h

/-- Everything a command that answers can do: one response, over the registers that answer writes. -/
theorem exec_answered {i : Instr} {s t : State} (h : exec i s = .next t) :
    ∃ e d u, Answered i s e d u ∧ t = respond e d u := by
  cases i with
  | new st pw => cases h; exact ⟨_, _, _, .constructed st pw s, rfl⟩
  | gpflag => cases h; exact ⟨_, _, _, .flagValue s, rfl⟩
  | hdrsz =>
    replace h : execHdrsz s = .next t := h
    by_cases hp : s.phase = .unconfigured
    · rw [execHdrsz, whenConfigured, if_pos hp] at h
      cases h; exact ⟨_, _, _, .notConfigured _ s trivial hp, rfl⟩
    · rw [execHdrsz, whenConfigured_of_ne hp] at h
      cases hst : s.strength with
      | none => rw [hst] at h; cases h
      | some st =>
        rw [hst, readReg_some] at h
        cases hrow : paramRow st with
        | none => simp only [hrow, raise_eq] at h; cases h; exact ⟨_, _, _, .unsupportedQuery s st hp hst hrow, rfl⟩
        | some row => simp only [hrow, answerOk_eq] at h; cases h; exact ⟨_, _, _, .headerSize s st row hp hst hrow, rfl⟩
  | rdauth =>
    simp only [exec, execRdauth] at h
    rcases whenReady_cases s (readReg .authKey s.authKey fun ak => answerOk ak s) with
      ⟨hp, hr⟩ | ⟨hp, hr⟩ | ⟨hp, hr⟩
    · rw [hr] at h; cases h; exact ⟨_, _, _, .notConfigured _ s trivial hp, rfl⟩
    · rw [hr] at h; cases h; exact ⟨_, _, _, .notReady _ s (.inl rfl) hp, rfl⟩
    · rw [hr] at h
      cases hk : s.authKey with
      | none => rw [hk] at h; cases h
      | some ak => rw [hk] at h; cases h; exact ⟨_, _, _, .authKeyRead s ak hp hk, rfl⟩
  | decrypt cin =>
    simp only [exec, execDecrypt] at h
    rcases whenRole_cases .decryptor s (transformChunk cin s) with ⟨hr, hk⟩ | ⟨hr, hk⟩
    · rw [hk] at h; exact transform_answered (.inl ⟨rfl, hr⟩) h
    · rw [hk] at h; cases h
      exact ⟨_, _, _, .wrongRole _ s (by simp [Instr.opcode, Opcode.legalFor, hr]), rfl⟩
  | encrypt cin =>
    simp only [exec, execEncrypt] at h
    rcases whenRole_cases .encryptor s (transformChunk cin s) with ⟨hr, hk⟩ | ⟨hr, hk⟩
    · rw [hk] at h; exact transform_answered (.inr ⟨rfl, hr⟩) h
    · rw [hk] at h; cases h
      exact ⟨_, _, _, .wrongRole _ s (by simp [Instr.opcode, Opcode.legalFor, hr]), rfl⟩
  | reset hdr =>
    simp only [exec, execReset] at h
    rcases whenRole_cases .decryptor s (withDerivedKeys hdr hdrLen s fun row _ keys =>
      if keys.verifier = memRead hdr row.saltBytes Config.verifierLen then answerOk [] (arm keys.encKey keys.authKey s)
      else failReset .badPassword [] s) with ⟨hr, hk⟩ | ⟨hr, hk⟩
    · rw [hk] at h
      refine derivation_answered (.inl ⟨rfl, rfl, hr⟩) h fun st row pw hp hst hrow hl hf hpw hlast => ?_
      split at hlast
      · next hv => cases hlast; exact ⟨_, _, _, .verified hdr s st row pw hr hp hst hrow hl hf hpw hv, rfl⟩
      · next hv => cases hlast; exact ⟨_, _, _, .badPassword hdr s st row pw hr hp hst hrow hl hpw hv, rfl⟩
    · rw [hk] at h; cases h
      exact ⟨_, _, _, .wrongRole _ s (by simp [Instr.opcode, Opcode.legalFor, hr]), rfl⟩
  | encReset salt =>
    simp only [exec, execEncReset] at h
    rcases whenRole_cases .encryptor s (withDerivedKeys salt (·.saltBytes) s fun row saltRead keys =>
      answerOk (memWrite (memWrite [] 0 saltRead) row.saltBytes keys.verifier) (arm keys.encKey keys.authKey s))
      with ⟨hr, hk⟩ | ⟨hr, hk⟩
    · rw [hk] at h
      refine derivation_answered (.inr ⟨rfl, rfl, hr⟩) h fun st row pw hp hst hrow hl hf hpw hlast => ?_
      have hl' : salt.length = row.saltBytes := hl
      rw [header_assembled hl', memRead_whole hl'] at hlast
      cases hlast
      exact ⟨_, _, _, .produced salt s st row pw hr hp hst hrow hl' hf hpw _ rfl, rfl⟩
    · rw [hk] at h; cases h
      exact ⟨_, _, _, .wrongRole _ s (by simp [Instr.opcode, Opcode.legalFor, hr]), rfl⟩

/-- The states in which a register that holds no value would be read (R27 excludes them). -/
def ReadsNoValue (s : State) : Prop :=
  (s.phase ≠ .unconfigured ∧ (s.strength = none ∨ s.pw = none)) ∨
  (s.phase = .ready ∧ (s.key = none ∨ s.authKey = none))

/-- Every command answers, or stops in a state with a missing register value. -/
theorem exec_next_or_readsNoValue (i : Instr) (s : State) : (∃ t, exec i s = .next t) ∨ ReadsNoValue s := by
  have transform : ∀ cin, (∃ t, transformChunk cin s = .next t) ∨ ReadsNoValue s := by
    intro cin
    rcases transformChunk_cases cin s with ⟨_, hr⟩ | ⟨_, hr⟩ | ⟨hp, ⟨_, hr⟩ | ⟨_, hr⟩⟩
    · exact .inl ⟨_, hr⟩
    · exact .inl ⟨_, hr⟩
    · exact .inl ⟨_, hr⟩
    · rcases hr with ⟨_, hr⟩ | ⟨_, _, hr⟩ | ⟨_, _, hk, _⟩ | ⟨_, _, _, _, hr⟩
      · exact .inl ⟨_, hr⟩
      · exact .inl ⟨_, hr⟩
      · exact .inr (.inr ⟨hp, .inl hk⟩)
      · exact .inl ⟨_, hr⟩
  have derivation : ∀ operand len k, (∀ row salt keys, ∃ t, k row salt keys = .next t) →
      (∃ t, withDerivedKeys operand len s k = .next t) ∨ ReadsNoValue s := by
    intro operand len k hk
    rcases withDerivedKeys_cases operand len s k with
      ⟨_, hr⟩ | ⟨hp, hst, _⟩ | ⟨hp, st, _, ⟨_, hr⟩ | ⟨row, _, hr⟩⟩
    · exact .inl ⟨_, hr⟩
    · exact .inr (.inl ⟨hp, .inl hst⟩)
    · exact .inl ⟨_, hr⟩
    · rcases hr with ⟨_, hr⟩ | ⟨_, _, hr⟩ | ⟨_, _, hpw, _⟩ | ⟨_, _, pw, _, hr⟩
      · exact .inl ⟨_, hr⟩
      · exact .inl ⟨_, hr⟩
      · exact .inr (.inl ⟨hp, .inr hpw⟩)
      · obtain ⟨t, ht⟩ := hk row _ _
        exact .inl ⟨t, hr.trans ht⟩
  have role : ∀ r k, ((∃ t, k = .next t) ∨ ReadsNoValue s) → (∃ t, whenRole r s k = .next t) ∨ ReadsNoValue s := by
    intro r k hk
    rcases whenRole_cases r s k with ⟨_, hr⟩ | ⟨_, hr⟩
    · rwa [hr]
    · exact .inl ⟨_, hr⟩
  cases i with
  | new st pw => exact .inl ⟨_, rfl⟩
  | gpflag => exact .inl ⟨_, rfl⟩
  | hdrsz =>
    simp only [exec]
    by_cases hp : s.phase = .unconfigured
    · exact .inl ⟨_, by rw [execHdrsz, whenConfigured, if_pos hp]; rfl⟩
    · cases hst : s.strength with
      | none => exact .inr (.inl ⟨hp, .inl hst⟩)
      | some st =>
        rw [execHdrsz, whenConfigured_of_ne hp, hst, readReg_some]
        cases hrow : paramRow st with
        | none => exact .inl ⟨_, rfl⟩
        | some row => exact .inl ⟨_, rfl⟩
  | rdauth =>
    simp only [exec, execRdauth]
    rcases whenReady_cases s (readReg .authKey s.authKey fun ak => answerOk ak s) with
      ⟨_, hr⟩ | ⟨_, hr⟩ | ⟨hp, hr⟩
    · exact .inl ⟨_, hr⟩
    · exact .inl ⟨_, hr⟩
    · cases hk : s.authKey with
      | none => exact .inr (.inr ⟨hp, .inr hk⟩)
      | some ak => exact .inl ⟨_, by rw [← hk, hr, hk]; rfl⟩
  | decrypt cin => exact role _ _ (transform cin)
  | encrypt cin => exact role _ _ (transform cin)
  | reset hdr =>
    refine role _ _ (derivation _ _ _ fun row salt keys => ?_)
    dsimp only
    split <;> exact ⟨_, rfl⟩
  | encReset salt => exact role _ _ (derivation _ _ _ fun row salt keys => ⟨_, rfl⟩)

end Sys2Proof.Machine
end

