-- ==== Sys2Proof/Laws/Chunks.lean ====
section
/-! SUPPORT. Runs of transforms over chunks aligned as spec/43_decrypt.md R148 asks. -/

namespace Sys2Proof.Machine

theorem alignedChunks_tail {x : Bytes} {xs : List Bytes} (h : AlignedChunks (x :: xs)) : AlignedChunks xs := by
  intro y hy
  apply h
  cases xs with
  | nil => simp at hy
  | cons z zs => exact List.mem_cons_of_mem _ hy

/-- The steps of the whole are those of the first chunk and of the rest. -/
theorem alignedChunks_steps {x : Bytes} {xs : List Bytes} (h : AlignedChunks (x :: xs)) :
    stepCount (x :: xs).flatten.length = stepCount x.length + stepCount xs.flatten.length := by
  cases xs with
  | nil => simp
  | cons z zs => rw [List.flatten_cons, List.length_append, stepCount_add (h x (List.mem_cons_self))]

/-- The transform of the whole is that of the first chunk and of the rest, each from its own counter. -/
theorem alignedChunks_streamXor (p : Primitives) (k : Bytes) (c : Nat) {x : Bytes} {xs : List Bytes}
    (h : AlignedChunks (x :: xs)) :
    streamXor p k c (x :: xs).flatten = streamXor p k c x ++ streamXor p k (c + stepCount x.length) xs.flatten := by
  cases xs with
  | nil => simp
  | cons z zs =>
    have hx : x.length % 16 = 0 := h x (List.mem_cons_self)
    rw [List.flatten_cons, streamXor_append _ _ _ _ _ hx,
      show stepCount x.length = x.length / 16 by simp only [stepCount, Config.block]; omega]

/-- A transform of each chunk in turn, with either command: the next state and the outputs together. -/
theorem runCommands_transforms (cmd : Bytes → Instr) (key : Bytes) (chunks : List Bytes) (s : State)
    (hcmd : ∀ c, TransformsChunk (cmd c) c s) (hp : s.phase = .ready) (hk : s.key = some key) (hf : s.primFails = false)
    (hc : s.ctr.toNat + stepCount chunks.flatten.length ≤ Config.ctrMax) (ha : AlignedChunks chunks) :
    ∃ outs : List Bytes, outs.length = chunks.length ∧
      outs.flatten = streamXor s.prims key s.ctr.toNat chunks.flatten ∧
      runCommands (chunks.map cmd) s = .next { s with
        ctr := BitVec.ofNat 32 (s.ctr.toNat + stepCount chunks.flatten.length),
        outputs := s.outputs ++ outs.map (responseFrame .ok) } := by
  induction chunks generalizing s with
  | nil => exact ⟨[], rfl, rfl, by simp [runCommands]⟩
  | cons x xs ih =>
    rw [alignedChunks_steps ha] at hc
    let s' : State := respond .ok (streamXor s.prims key s.ctr.toNat x)
      { s with ctr := BitVec.ofNat 32 (s.ctr.toNat + stepCount x.length) }
    have h1 : exec (cmd x) s = .next s' := by
      rw [exec_transform (hcmd x), transformChunk_ok hp hk hf (by omega)]
    have hctr : s'.ctr.toNat = s.ctr.toNat + stepCount x.length := by
      simp only [Config.ctrMax] at hc; simp [s']; omega
    obtain ⟨outs, h2, h3, h4⟩ := ih s' hcmd hp hk hf (by rw [hctr]; omega) (alignedChunks_tail ha)
    refine ⟨streamXor s.prims key s.ctr.toNat x :: outs, by simp [h2], ?_, ?_⟩
    · rw [List.flatten_cons, h3, hctr, alignedChunks_streamXor _ _ _ ha]; rfl
    · simp only [List.map_cons, runCommands, h1, h4, hctr, alignedChunks_steps ha]
      simp [s', Nat.add_assoc, respond]

end Sys2Proof.Machine
end

