-- ==== Sys2Proof/Laws/Decode.lean ====
section
/-! SUPPORT. What the decoder answers, for proofs to cite instead of unfolding it. -/

namespace Sys2Proof

/-- A frame of a known opcode and the right length is decoded. -/
theorem decode_of_length {b : Byte} {rest : Bytes} {op : Opcode} (hop : opcodeOfByte b = some op)
    (hl : (b :: rest).length = expectedLength op.format (b :: rest)) :
    decode (b :: rest) = .ok (assemble op (b :: rest)) := by
  simp only [decode, hop]
  exact if_pos hl

/-- A frame of a known opcode and a wrong length is malformed. -/
theorem decode_of_length_ne {b : Byte} {rest : Bytes} {op : Opcode} (hop : opcodeOfByte b = some op)
    (hl : (b :: rest).length ≠ expectedLength op.format (b :: rest)) :
    decode (b :: rest) = .error (.malformed op) := by
  simp only [decode, hop]
  exact if_neg hl

/-- A frame whose byte 0 is in no row of the opcode map. -/
theorem decode_of_reserved {b : Byte} {rest : Bytes} (h : opcodeOfByte b = none) :
    decode (b :: rest) = .error (.reservedOpcode b) := by
  simp only [decode, h]

/-- What an accepted frame is: a known opcode and the right length. -/
theorem decode_ok_cases {f : Frame} {i : Instr} (h : decode f = .ok i) :
    ∃ op rest, f = op.byte :: rest ∧ f.length = expectedLength op.format f ∧ i = assemble op f := by
  cases f with
  | nil => cases h
  | cons b rest =>
    cases hop : opcodeOfByte b with
    | none => rw [decode_of_reserved hop] at h; cases h
    | some op =>
      by_cases hl : (b :: rest).length = expectedLength op.format (b :: rest)
      · rw [decode_of_length hop hl] at h
        cases h
        exact ⟨op, rest, by rw [byte_of_opcodeOfByte hop], hl, rfl⟩
      · rw [decode_of_length_ne hop hl] at h; cases h

end Sys2Proof
end

