-- ==== Sys2Proof/Laws/Invariant.lean ====
section
/-! SUPPORT. The shared operations keep the invariants of spec/10_state.md R27; the derived keys written as slices of `dk`. -/

namespace Sys2Proof.Machine

theorem invariant_respond {e : Status} {d : Bytes} {s : State} (h : Invariant s) : Invariant (respond e d s) :=
  ⟨h.1, h.2, h.3, h.4, h.5, h.6, h.7⟩

theorem invariant_boundary {s : State} (h : Invariant s) (inputs : List Event) (fails : Bool) :
    Invariant { s with inputs := inputs, primFails := fails } := ⟨h.1, h.2, h.3, h.4, h.5, h.6, h.7⟩

theorem invariant_dropCipher {s : State} (h : Invariant s) (hp : s.phase ≠ .unconfigured) : Invariant (dropCipher s) := by
  refine ⟨?_, ?_, ?_, ?_, ?_, ?_, h.pw_bound⟩ <;> simp [h.pw_none_iff, h.strength_none_iff, hp]

theorem invariant_arm {s : State} (h : Invariant s) {st : Byte} {row : StrengthRow} {pw salt : Bytes}
    (hp : s.phase ≠ .unconfigured) (hst : s.strength = some st) (hrow : paramRow st = some row) (hpw : s.pw = some pw)
    (hl : salt.length = row.saltBytes) :
    Invariant (arm (deriveKeys s.prims pw salt row).encKey (deriveKeys s.prims pw salt row).authKey s) := by
  obtain ⟨l1, l2, _⟩ := deriveKeys_lengths s.prims pw salt row
  refine ⟨?_, ?_, ?_, ?_, ?_, ?_, h.pw_bound⟩ <;> simp [h.pw_none_iff, h.strength_none_iff, hp]
  exact ⟨pw, st, row, _, _, salt, hpw, hst, hrow, rfl, rfl, l1, l2, hl, deriveKeys_append _ _ _ _⟩

theorem paramRow_of_keyLen_saltLen {st : Byte} {kl sl : Nat} (h1 : keyLen st = some kl) (h2 : saltLen st = some sl) :
    ∃ row, paramRow st = some row ∧ row.keyBytes = kl ∧ row.saltBytes = sl := by
  unfold keyLen at h1; unfold saltLen at h2
  cases h : paramRow st with
  | none => rw [h] at h1; cases h1
  | some row => rw [h] at h1 h2; exact ⟨row, rfl, by simpa using h1, by simpa using h2⟩

theorem paramRow_of_saltLen {st : Byte} {sl : Nat} (h : saltLen st = some sl) :
    ∃ row, paramRow st = some row ∧ row.saltBytes = sl := by
  unfold saltLen at h
  cases hr : paramRow st with
  | none => rw [hr] at h; cases h
  | some row => rw [hr] at h; exact ⟨row, rfl, by simpa using h⟩

/-- R123, R124: the three regions as slices of the derived bytes. -/
theorem deriveKeys_eq (p : Primitives) (pw salt : Bytes) (row : StrengthRow) :
    deriveKeys p pw salt row =
      let dk := pbkdf2HmacSha1 p pw salt 1000 (2 * row.keyBytes + 2)
      ⟨dk.take row.keyBytes, (dk.drop row.keyBytes).take row.keyBytes, dk.drop (2 * row.keyBytes)⟩ := by
  simp only [deriveKeys, splitDk, memRead, dkLen, Config.verifierLen, Config.iter, List.drop_zero, DerivedKeys.mk.injEq,
    true_and]
  rw [List.take_of_length_le]; simp

end Sys2Proof.Machine
end

