-- ==== Sys2Proof/Laws/PerInstr.lean ====
section
/-! SUPPORT. Per-instruction facts about the encoding. EncodedShape: a command's frame begins with its opcode byte, and the
frame of a well-formed command has exactly the length its format asks for (spec/30_encoding.md R71 to R75, R79). -/

namespace Sys2Proof.Laws.EncodedShape

/-- The frame of `i` begins with the opcode of R75 and has the length of R71, R72 or R73. -/
def Statement (i : Instr) : Prop :=
  (encode i).head? = some i.opcode.byte ∧
    (i.wellFormed = true → (encode i).length = expectedLength i.opcode.format (encode i))

/-- A Format V frame has the length its field gives. -/
theorem formatV (opc : Byte) (data : Bytes) (h : data.length ≤ Config.chunkMax) :
    (opc :: (le 4 data.length ++ data)).length = expectedLength .v (opc :: (le 4 data.length ++ data)) := by
  have hfit : data.length < 256 ^ 4 := by simp only [Config.chunkMax] at h; omega
  simp only [expectedLength, List.drop_succ_cons, List.drop_zero, List.take_left' (le_length 4 _), leNat_le _ _ hfit]
  simp; omega

/-- A Format C frame has the length its field gives. -/
theorem formatC (opc strength : Byte) (password : Bytes) (h : password.length ≤ Config.pwMax) :
    (opc :: strength :: (le 2 password.length ++ password)).length =
      expectedLength .c (opc :: strength :: (le 2 password.length ++ password)) := by
  have hfit : password.length < 256 ^ 2 := by simp only [Config.pwMax] at h; omega
  simp only [expectedLength, List.drop_succ_cons, List.drop_zero, List.take_left' (le_length 2 _), leNat_le _ _ hfit]
  simp; omega

theorem new (strength : Byte) (password : Bytes) : Statement (.new strength password) :=
  ⟨rfl, fun h => formatC _ _ _ (by simpa [Instr.wellFormed] using h)⟩

theorem hdrsz : Statement .hdrsz := ⟨rfl, fun _ => rfl⟩

theorem gpflag : Statement .gpflag := ⟨rfl, fun _ => rfl⟩

theorem reset (hdr : Bytes) : Statement (.reset hdr) :=
  ⟨rfl, fun h => formatV _ _ (by simpa [Instr.wellFormed] using h)⟩

theorem decrypt (cin : Bytes) : Statement (.decrypt cin) :=
  ⟨rfl, fun h => formatV _ _ (by simpa [Instr.wellFormed] using h)⟩

theorem rdauth : Statement .rdauth := ⟨rfl, fun _ => rfl⟩

theorem encReset (salt : Bytes) : Statement (.encReset salt) :=
  ⟨rfl, fun h => formatV _ _ (by simpa [Instr.wellFormed] using h)⟩

theorem encrypt (cin : Bytes) : Statement (.encrypt cin) :=
  ⟨rfl, fun h => formatV _ _ (by simpa [Instr.wellFormed] using h)⟩

end Sys2Proof.Laws.EncodedShape
end

