-- ==== Sys2Proof/Tests/Slice0.lean ====
section
/-! SUPPORT. Own tests: the well-formedness smoke, words written out from spec/30_encoding.md and spec/95_test_vectors.md,
single steps from spec/95_test_vectors.md, and for every obligation with hypotheses a witness that meets them. -/

namespace Sys2Proof.Tests

open Sys2Proof Sys2Proof.Machine

/-- KEY after T2. -/
def k2 : Bytes := [0xf9, 0xf4, 0xf3, 0x6d, 0xc4, 0xf4, 0x73, 0xd2, 0x27, 0x4d, 0xd6, 0x09, 0xc7, 0x2b, 0xa4, 0x4e]

/-- AUTHKEY after T2. -/
def a2 : Bytes := [0xbc, 0x5d, 0xe0, 0xe5, 0x33, 0x6b, 0xf9, 0xbf, 0x5e, 0x58, 0x61, 0xea, 0x51, 0x61, 0x45, 0xaa]

/-- "password". -/
def password : Bytes := [0x70, 0x61, 0x73, 0x73, 0x77, 0x6f, 0x72, 0x64]

/-- A unit in a phase after NEW, with a strength code, a counter and a key. -/
def unit (role : Role) (phase : Phase) (strength : Byte) (ctr : Nat) (key : Bytes) : State :=
  match phase with
  | .unconfigured => { State.reset with role := role }
  | .uninitialized => { State.reset with
      role := role, phase := .uninitialized, pw := some password, strength := some strength, ctr := BitVec.ofNat 32 ctr }
  | .ready => { State.reset with
      role := role, phase := .ready, pw := some password, strength := some strength, ctr := BitVec.ofNat 32 ctr,
      key := some key, authKey := some a2 }

/-- The last response delivered by a result that is a next state. -/
def answer (r : Result) : Option Frame :=
  match r with
  | .next t => t.outputs.getLast?
  | .fault _ => none
  | .refused _ => none

/-- The counter and phase of a result that is a next state. -/
def after (r : Result) : Option (Nat × Phase × Option Bytes) :=
  match r with
  | .next t => some (t.ctr.toNat, t.phase, t.key)
  | .fault _ => none
  | .refused _ => none

/-- A step on one frame. -/
def deliver (f : Frame) (s : State) : Result := step { s with inputs := [.command f] }

/-! ## Well-formedness: one ill-formed term for each check (R6) -/

theorem test_wf_refuses_long_password : (Instr.new 3 (List.replicate 65536 0)).wellFormed = false := by
  rw [Instr.wellFormed, List.length_replicate]; decide

theorem test_wf_refuses_long_header : (Instr.reset (List.replicate 4294967296 0)).wellFormed = false := by
  rw [Instr.wellFormed, List.length_replicate]; decide

theorem test_wf_refuses_long_input : (Instr.decrypt (List.replicate 4294967296 0)).wellFormed = false := by
  rw [Instr.wellFormed, List.length_replicate]; decide

theorem test_wf_refuses_long_salt : (Instr.encReset (List.replicate 4294967296 0)).wellFormed = false := by
  rw [Instr.wellFormed, List.length_replicate]; decide

theorem test_wf_refuses_long_plaintext : (Instr.encrypt (List.replicate 4294967296 0)).wellFormed = false := by
  rw [Instr.wellFormed, List.length_replicate]; decide

/-! ## Decoding: frames written out from R71 to R76 and the test vectors -/

theorem test_decode_new :
    decode [0x01, 0x03, 0x08, 0x00, 0x70, 0x61, 0x73, 0x73, 0x77, 0x6f, 0x72, 0x64] =
      .ok (.new 3 [0x70, 0x61, 0x73, 0x73, 0x77, 0x6f, 0x72, 0x64]) := by decide

theorem test_decode_hdrsz : decode [0x02] = .ok .hdrsz := by decide

theorem test_decode_gpflag : decode [0x03] = .ok .gpflag := by decide

theorem test_decode_reset :
    decode [0x04, 0x0a, 0x00, 0x00, 0x00, 0x7f, 0xfe, 0x75, 0x71, 0xff, 0xd1, 0xab, 0x83, 0xb3, 0x6a] =
      .ok (.reset [0x7f, 0xfe, 0x75, 0x71, 0xff, 0xd1, 0xab, 0x83, 0xb3, 0x6a]) := by decide

theorem test_decode_decrypt :
    decode [0x05, 0x03, 0x00, 0x00, 0x00, 0x22, 0x21, 0x6a] = .ok (.decrypt [0x22, 0x21, 0x6a]) := by decide

theorem test_decode_rdauth : decode [0x06] = .ok .rdauth := by decide

theorem test_decode_encReset :
    decode [0x14, 0x0c, 0x00, 0x00, 0x00, 0x00, 0x01, 0x02, 0x03, 0x04, 0x05, 0x06, 0x07, 0x08, 0x09, 0x0a,
      0x0b] =
      .ok (.encReset [0x00, 0x01, 0x02, 0x03, 0x04, 0x05, 0x06, 0x07, 0x08, 0x09, 0x0a, 0x0b]) := by decide

theorem test_decode_encrypt : decode [0x15, 0x01, 0x00, 0x00, 0x00, 0x58] = .ok (.encrypt [0x58]) := by decide

/-- The length fields are little-endian: 256 is `00 01` and `00 01 00 00` (R76). -/
theorem test_decode_lengths_little_endian :
    decode ([0x01, 0x01, 0x00, 0x01] ++ List.replicate 256 0x61) = .ok (.new 1 (List.replicate 256 0x61)) ∧
      decode ([0x05, 0x00, 0x01, 0x00, 0x00] ++ List.replicate 256 0) = .ok (.decrypt (List.replicate 256 0)) := by
  decide +kernel

/-- T5 and R77, R78: each way a frame can be malformed, and the reserved opcodes at the ends of their ranges. -/
theorem test_decode_rejects :
    decode [] = .error .emptyFrame ∧
      (∀ f ∈ [[0x02, 0x00], [0x01, 0x01], [0x01, 0x01, 0x03, 0x00, 0x61, 0x62], [0x01, 0x01, 0x01, 0x00, 0x61, 0x62],
        [0x04, 0x0a, 0x00, 0x00, 0x00, 0x01], [0x05, 0x00, 0x00, 0x00]], (decode f).toOption = none) ∧
      (∀ b ∈ [0x00, 0x07, 0x13, 0x16, 0xff], (decode [b]).toOption = none) := by decide

/-- Every table row's word of zeros above its opcode decodes to its command. -/
theorem test_decodeTableWord :
    decodeTableWord 8 0x01 = some (.new 0 []) ∧ decodeTableWord 8 0x02 = some .hdrsz ∧
      decodeTableWord 8 0x03 = some .gpflag ∧ decodeTableWord 8 0x04 = some (.reset []) ∧
      decodeTableWord 8 0x05 = some (.decrypt []) ∧ decodeTableWord 8 0x06 = some .rdauth ∧
      decodeTableWord 8 0x14 = some (.encReset []) ∧ decodeTableWord 8 0x15 = some (.encrypt []) ∧
      decodeTableWord 8 0x07 = none := by decide

/-- The first step after reset runs the placed word; ENC_RESET and ENCRYPT on an Encryptor (T5: NotConfigured). -/
theorem test_withFetchWord :
    (∀ w ∈ [0x02, 0x04, 0x05, 0x06, 0x14, 0x15],
      answer (step (State.reset.withFetchWord 8 w)) = some [0x05, 0, 0, 0, 0]) ∧
    answer (step (State.reset.withFetchWord 8 0x01)) = some [0, 0, 0, 0, 0] ∧
    answer (step (State.reset.withFetchWord 8 0x03)) = some [0, 2, 0, 0, 0, 1, 0] := by decide

/-! ## Single steps (spec/95_test_vectors.md) -/

/-- T5: NEW while Ready drops the keys and the counter. -/
theorem test_new_while_ready :
    after (deliver [0x01, 0x02, 0x01, 0x00, 0x78] (unit .decryptor .ready 1 1 k2)) = some (0, .uninitialized, none) := by
  decide

/-- T5: code 128 is no bit count, and the answer to HDRSZ is the stored code. -/
theorem test_hdrsz :
    answer (deliver [0x02] (unit .decryptor .uninitialized 128 0 [])) = some [0x01, 1, 0, 0, 0, 0x80] ∧
      answer (deliver [0x02] (unit .decryptor .ready 2 0 k2)) = some [0, 1, 0, 0, 0, 0x0e] := by decide

/-- T5: GPFLAG before any NEW. -/
theorem test_gpflag : answer (deliver [0x03] State.reset) = some [0, 2, 0, 0, 0, 1, 0] := by decide

/-- T6: a header of 9 bytes drops the keys of the entry before; the counter is not written. -/
theorem test_reset_header_length :
    answer (deliver [0x04, 0x09, 0, 0, 0, 0x7f, 0xfe, 0x75, 0x71, 0xff, 0xd1, 0xab, 0x83, 0xb3]
        (unit .decryptor .ready 1 1 k2)) = some [0x03, 0, 0, 0, 0] ∧
      after (deliver [0x04, 0x09, 0, 0, 0, 0x7f, 0xfe, 0x75, 0x71, 0xff, 0xd1, 0xab, 0x83, 0xb3]
        (unit .decryptor .ready 1 1 k2)) = some (1, .uninitialized, none) := by decide

/-- T6: RESET with the header H2 whose derived bytes are those of T2 arms the cipher with T2's keys. The derivation itself,
1000 iterations, is not run in the kernel. -/
theorem test_reset_arms (hdk : pbkdf2HmacSha1 .standard password [0x7f, 0xfe, 0x75, 0x71, 0xff, 0xd1, 0xab, 0x83] 1000 34 =
      k2 ++ a2 ++ [0xb3, 0x6a]) :
    ∃ t, exec (.reset [0x7f, 0xfe, 0x75, 0x71, 0xff, 0xd1, 0xab, 0x83, 0xb3, 0x6a]) (unit .decryptor .ready 1 2 []) = .next t ∧
      t.key = some k2 ∧ t.authKey = some a2 ∧ t.ctr = 0 ∧ t.phase = .ready := by
  have hkeys : (⟨k2, a2, [0xb3, 0x6a]⟩ : DerivedKeys) = deriveKeys .standard password
      (memRead [0x7f, 0xfe, 0x75, 0x71, 0xff, 0xd1, 0xab, 0x83, 0xb3, 0x6a] 0 8) ⟨128, 16, 8⟩ := by
    rw [deriveKeys_eq]
    simp only [memRead, List.drop_zero, List.take_succ_cons, List.take_zero, hdk]
    decide
  exact ⟨_, (exec_reset_verifies (s := unit .decryptor .ready 1 2 []) rfl (by decide) rfl rfl rfl rfl rfl hkeys).1
    (by decide), rfl, rfl, rfl, rfl⟩

/-- T2: three bytes with AES-128. -/
theorem test_decrypt_three_bytes :
    answer (deliver [0x05, 3, 0, 0, 0, 0x22, 0x21, 0x6a] (unit .decryptor .ready 1 0 k2)) =
      some [0, 3, 0, 0, 0, 0x4b, 0x04, 0x00] := by decide +kernel

/-- T8: at the counter limit the command is refused; an empty chunk is not. -/
theorem test_decrypt_counter_limit :
    answer (deliver [0x05, 1, 0, 0, 0, 0] (unit .decryptor .ready 1 4294967295 k2)) = some [0x06, 0, 0, 0, 0] ∧
      answer (deliver [0x05, 0, 0, 0, 0] (unit .decryptor .ready 1 4294967295 k2)) = some [0, 0, 0, 0, 0] := by decide

/-- T6: RDAUTH after RESET H2, and before any RESET. -/
theorem test_rdauth :
    answer (deliver [0x06] (unit .decryptor .ready 1 0 k2)) = some ([0, 0x10, 0, 0, 0] ++ a2) ∧
      answer (deliver [0x06] (unit .decryptor .uninitialized 1 0 k2)) = some [0x04, 0, 0, 0, 0] := by decide

/-- T9: ENC_RESET with a 13-byte salt. -/
theorem test_encReset_salt_length :
    answer (deliver ([0x14, 0x0d, 0, 0, 0] ++ List.replicate 13 0) (unit .encryptor .ready 2 2 k2)) =
      some [0x03, 0, 0, 0, 0] := by decide

/-- T9: the first bytes of the plaintext with AES-192. -/
theorem test_encrypt_hello :
    answer (deliver [0x15, 5, 0, 0, 0, 0x68, 0x65, 0x6c, 0x6c, 0x6f]
      (unit .encryptor .ready 2 0 [0x9d, 0x60, 0x0f, 0x09, 0xb2, 0xad, 0x3a, 0xdf, 0x74, 0x93, 0x7f, 0x0c, 0xb5, 0xab, 0x26, 0x81,
      0xa3, 0x70, 0xfb, 0x99, 0xe0, 0xfb, 0xc0, 0xf2])) =
      some [0, 5, 0, 0, 0, 0x94, 0x92, 0x6c, 0xc5, 0xde] := by decide +kernel

/-- T9, T5: an opcode of the other role. -/
theorem test_other_role :
    answer (deliver [0x05, 0, 0, 0, 0] (unit .encryptor .ready 2 0 k2)) = some [0x07, 0, 0, 0, 0] ∧
      answer (deliver [0x15, 0, 0, 0, 0] (unit .decryptor .ready 2 0 k2)) = some [0x07, 0, 0, 0, 0] := by decide

/-- T1: the first keystream byte with AES-256. -/
theorem test_aes256 :
    (keystream .standard [0xd1, 0x2f, 0x70, 0xc6, 0xf9, 0xdc, 0x60, 0x5c, 0x01, 0x13, 0xa1, 0x44, 0xf0, 0x36, 0x7c, 0x6e,
      0x4a, 0xf2, 0xd4, 0xea, 0x2a, 0x7f, 0xd3, 0x03, 0xb3, 0xc4, 0x9d, 0xf5, 0x8d, 0xbc, 0x94, 0xe9] 0).take 1 = [0xc0] := by decide +kernel

/-- R55, R206: a 34-byte entry with strength 1 has a 10-byte header, 14 payload bytes and a 10-byte trailer; one of 19 bytes
is too short. -/
theorem test_cutEntry :
    cutEntry ⟨128, 16, 8⟩ (List.replicate 10 1 ++ List.replicate 14 2 ++ List.replicate 10 3) =
        some ⟨List.replicate 10 1, List.replicate 14 2, List.replicate 10 3⟩ ∧
      cutEntry ⟨128, 16, 8⟩ (List.replicate 19 0) = none := by decide

/-- T4: counter blocks at the ends of the field's bytes. -/
theorem test_ctrBlock :
    (ctrBlock 254).take 4 = [0xff, 0, 0, 0] ∧ (ctrBlock 255).take 4 = [0, 1, 0, 0] ∧
      (ctrBlock 65535).take 4 = [0, 0, 1, 0] ∧ (ctrBlock 4294967294).take 4 = [0xff, 0xff, 0xff, 0xff] ∧
      (ctrBlock 0).drop 4 = List.replicate 12 0 := by decide

/-- Known answer: `SHA1("")`. -/
theorem test_sha1_empty :
    sha1 [] = [0xda, 0x39, 0xa3, 0xee, 0x5e, 0x6b, 0x4b, 0x0d, 0x32, 0x55, 0xbf, 0xef, 0x95, 0x60, 0x18, 0x90,
      0xaf, 0xd8, 0x07, 0x09] := by
  decide +kernel

/-- Known answer: `HMAC_SHA1("", "")`. -/
theorem test_hmac_empty :
    hmacSha1 [] [] = [0xfb, 0xdb, 0x1d, 0x1b, 0x18, 0xaa, 0x6c, 0x08, 0x32, 0x4b, 0x7d, 0x64, 0xb7, 0x1f, 0xb7, 0x63,
      0x70, 0x69, 0x0e, 0x1d] := by
  decide +kernel

/-- Known answer: with iteration count 2 the derivation of T2 begins `d1 8b d5 0e`. -/
theorem test_pbkdf2_two_iterations :
    pbkdf2Standard password [0x7f, 0xfe, 0x75, 0x71, 0xff, 0xd1, 0xab, 0x83] 2 4 = [0xd1, 0x8b, 0xd5, 0x0e] := by
  decide +kernel

/-! ## Witnesses: states and operands that meet the hypotheses of the obligations, clause by clause -/

/-- The salt of the witnesses with strength 1. -/
def salt8 : Bytes := List.replicate 8 0

/-- What strength 1 derives from the password and `salt8`. -/
def dk8 : Bytes := pbkdf2HmacSha1 .standard password salt8 1000 34

theorem dk8_verifier_length : (dk8.drop 32).length = 2 := by simp [dk8]

/-- A verifier that does not match. -/
def wrongVerifier : Bytes := (dk8.drop 32).map (· ^^^ 1)

theorem wrongVerifier_ne : dk8.drop 32 ≠ wrongVerifier := by
  have h := dk8_verifier_length
  have hbyte : ∀ a : Byte, a ≠ a ^^^ 1 := by decide
  unfold wrongVerifier
  match dk8.drop 32, h with
  | a :: _, _ => exact fun heq => hbyte a (List.cons.inj heq).1

theorem wrongVerifier_length : wrongVerifier.length = 2 := by
  rw [wrongVerifier, List.length_map, dk8_verifier_length]

/-- R71 to R76 at the operands' bounds. -/
theorem witness_DecodeOfEncode :
    (Instr.new 255 (List.replicate 65535 0)).wellFormed = true ∧ Instr.hdrsz.wellFormed = true ∧
      (Instr.decrypt (List.replicate 4294967295 0)).wellFormed = true := by
  refine ⟨?_, rfl, ?_⟩ <;> rw [Instr.wellFormed, List.length_replicate] <;> decide

theorem witness_EncodeOfDecode : decode [0x15, 0x01, 0, 0, 0, 0x68] = .ok (.encrypt [0x68]) := by decide

/-- One malformed frame for each clause of R78, on a state that holds it as its next frame. -/
theorem witness_MalformedFrameIsIllegal :
    ∀ f ∈ ([[], [0x06, 0x00], [0x01, 0x00, 0x00], [0x01, 0x00, 0x01, 0x00], [0x15, 0, 0, 0], [0x14, 0, 0, 0, 1]] : List Frame),
      MalformedFrame f ∧ { State.reset with inputs := [.command f] }.inputs = .command f :: [] := by
  intro f hf
  simp only [List.mem_cons, List.not_mem_nil, or_false] at hf
  rcases hf with rfl | rfl | rfl | rfl | rfl | rfl <;> simp [MalformedFrame]

/-- Both ends of each reserved range, and an opcode of the other role for each role. -/
theorem witness_ReservedOrOtherRoleIsIllegal :
    (∀ b ∈ ([0x00, 0x07, 0x13, 0x16, 0xff] : List Byte), ReservedOpcode b) ∧
      (unit .encryptor .ready 1 0 k2).role = .encryptor ∧ (unit .decryptor .ready 1 0 k2).role = .decryptor := by
  refine ⟨?_, rfl, rfl⟩
  unfold ReservedOpcode; decide

theorem witness_WellFormedFrameDecodes :
    (¬ MalformedFrame [0x03] ∧ ¬ ReservedOpcode 0x03) ∧
      ¬ MalformedFrame [0x01, 0xff, 0x00, 0x00] ∧ ¬ MalformedFrame [0x15, 0x01, 0, 0, 0, 0x58] := by
  refine ⟨⟨?_, ?_⟩, ?_, ?_⟩ <;> simp [MalformedFrame, ReservedOpcode]

/-- A reset between commands and one that abandons a RESET (R200), and a frame that decodes, as next events. -/
theorem witness_events :
    { unit .decryptor .ready 1 7 k2 with inputs := [.hardwareReset none] }.inputs = .hardwareReset none :: [] ∧
      { unit .decryptor .ready 1 7 k2 with inputs := [.hardwareReset (some [0x04, 0, 0, 0, 0])] }.inputs =
        .hardwareReset (some [0x04, 0, 0, 0, 0]) :: [] ∧
      { State.reset with inputs := [.command [0x03]] }.inputs = .command [0x03] :: [] ∧ decode [0x03] = .ok .gpflag ∧
      State.reset.inputs = [] ∧ decodeTableWord 8 0x15 = some (.encrypt []) := by decide

theorem witness_NewDropsOldKeys :
    ∃ t, exec (.new 2 [0x78]) (unit .decryptor .ready 1 1 k2) = .next t := ⟨_, rfl⟩

/-- HDRSZ and RDAUTH in each phase, for a supported code and for the smallest and largest unsupported ones. -/
theorem witness_queries :
    (unit .decryptor .unconfigured 0 0 []).phase = .unconfigured ∧
      (∀ st ∈ ([0, 1, 2, 3, 4, 255] : List Byte), (unit .decryptor .uninitialized st 0 []).phase ≠ .unconfigured ∧
        (unit .decryptor .uninitialized st 0 []).strength = some st) ∧
      (unit .decryptor .uninitialized 1 0 []).phase = .uninitialized ∧
      (unit .decryptor .ready 1 0 k2).phase = .ready ∧ (unit .decryptor .ready 1 0 k2).authKey = some a2 := by decide

theorem witness_QueriesRepeat :
    (∃ t, exec .hdrsz (unit .encryptor .ready 2 0 k2) = .next t) ∧ (∃ t, exec .gpflag State.reset = .next t) ∧
      ∃ t, exec .rdauth (unit .encryptor .ready 2 0 k2) = .next t := ⟨⟨_, rfl⟩, ⟨_, rfl⟩, ⟨_, rfl⟩⟩

/-- A Decryptor that is Ready at the counter limit, and a header whose verifier is the derived one. -/
theorem witness_ResetArmsCipher :
    let s := unit .decryptor .ready 1 4294967295 k2
    s.role = .decryptor ∧ s.phase ≠ .unconfigured ∧ s.primFails = false ∧ s.pw = some password ∧ s.strength = some 1 ∧
      keyLen 1 = some 16 ∧ saltLen 1 = some 8 ∧ salt8.length = 8 ∧ (dk8.drop 32).length = 2 ∧
      (pbkdf2HmacSha1 s.prims password salt8 1000 (2 * 16 + 2)).drop (2 * 16) = dk8.drop 32 :=
  ⟨rfl, by decide, rfl, rfl, rfl, rfl, rfl, rfl, dk8_verifier_length, rfl⟩

theorem dk8_verifier (v : Bytes) :
    (deriveKeys .standard password (memRead (salt8 ++ v) 0 8) ⟨128, 16, 8⟩).verifier = dk8.drop 32 := by
  have h : memRead (salt8 ++ v) 0 8 = salt8 := by simp [memRead, salt8]
  simp only [h, deriveKeys_eq, dk8]

theorem verifier_read {v : Bytes} (h : v.length = 2) : memRead (salt8 ++ v) 8 2 = v := by
  rw [memRead, List.drop_left' (by rfl), List.take_of_length_le (by omega)]

/-- Each failure of RESET: not constructed; codes 0, 4 and 255; a header one byte short and one too long; a verifier that
does not match. -/
theorem witness_ResetFailsInOrder :
    (unit .decryptor .unconfigured 0 0 []).phase = .unconfigured ∧
      (∀ st ∈ ([0, 4, 255] : List Byte), (unit .decryptor .ready st 0 k2).strength = some st ∧ keyLen st = none) ∧
      (List.replicate 9 (0 : Byte)).length ≠ 8 + 2 ∧ (List.replicate 11 (0 : Byte)).length ≠ 8 + 2 ∧
      (salt8 ++ wrongVerifier).length = 8 + 2 ∧
      (pbkdf2HmacSha1 .standard password ((salt8 ++ wrongVerifier).take 8) 1000 (2 * 16 + 2)).drop (2 * 16) ≠
        (salt8 ++ wrongVerifier).drop 8 := by
  refine ⟨rfl, by decide, by decide, by decide, ?_, ?_⟩
  · rw [List.length_append, wrongVerifier_length]; rfl
  · rw [List.take_left' (by rfl), List.drop_left' (by rfl)]; exact wrongVerifier_ne

theorem witness_ResetReadyIffVerifierMatches :
    let s := unit .decryptor .uninitialized 1 0 []
    s.role = .decryptor ∧ s.phase ≠ .unconfigured ∧ s.primFails = false ∧ s.pw = some password ∧ s.strength = some 1 ∧
      keyLen 1 = some 16 ∧ saltLen 1 = some 8 ∧ (List.replicate 10 (0 : Byte)).length = 8 + 2 :=
  ⟨rfl, by decide, rfl, rfl, rfl, rfl, rfl, rfl⟩

/-- A wrong password on a Ready unit. -/
theorem witness_RejectedPasswordGivesNoPlaintext :
    let s := unit .decryptor .ready 1 1 k2
    ∃ t, exec (.reset (salt8 ++ wrongVerifier)) s = .next t ∧ t.outputs = s.outputs ++ [responseFrame .badPassword []] := by
  refine ⟨_, (exec_reset_verifies (s := unit .decryptor .ready 1 1 k2) (st := 1) (row := ⟨128, 16, 8⟩) rfl (by decide) rfl
    rfl ?_ rfl rfl rfl).2 ?_, rfl⟩
  · rw [List.length_append, wrongVerifier_length]; rfl
  · intro hv
    refine wrongVerifier_ne ((dk8_verifier wrongVerifier).symm.trans (hv.trans (verifier_read wrongVerifier_length)))

/-- The same header after two different histories: from Ready with another key and counter, and from Uninitialized. -/
theorem witness_ResetForgetsEarlierEntries :
    let s := unit .decryptor .ready 1 9 k2
    let s' := unit .decryptor .uninitialized 1 0 []
    (s.pw = s'.pw ∧ s.strength = s'.strength ∧ s.prims = s'.prims) ∧
      (∃ t, exec (.reset (salt8 ++ dk8.drop 32)) s = .next t ∧ t.outputs = s.outputs ++ [responseFrame .ok []]) ∧
      ∃ t, exec (.reset (salt8 ++ dk8.drop 32)) s' = .next t ∧ t.outputs = s'.outputs ++ [responseFrame .ok []] := by
  have hl : (salt8 ++ dk8.drop 32).length = hdrLen ⟨128, 16, 8⟩ := by
    rw [List.length_append, dk8_verifier_length]; rfl
  have hv := (dk8_verifier (dk8.drop 32)).trans (verifier_read dk8_verifier_length).symm
  refine ⟨⟨rfl, rfl, rfl⟩, ⟨_, (exec_reset_verifies (s := unit .decryptor .ready 1 9 k2) (st := 1) (row := ⟨128, 16, 8⟩)
    rfl (by decide) rfl rfl hl rfl rfl rfl).1 hv, rfl⟩, ⟨_, (exec_reset_verifies
    (s := unit .decryptor .uninitialized 1 0 []) (st := 1) (row := ⟨128, 16, 8⟩) rfl (by decide) rfl rfl hl rfl rfl rfl).1 hv,
    rfl⟩⟩

theorem witness_CounterBlocks : (0 : Nat) ≤ 4294967294 ∧ (4294967294 : Nat) ≤ 4294967294 := by decide

/-- 33 bytes: three steps, the last of one byte. -/
theorem witness_ChunkIsCutIntoBlocks :
    (0 < stepCount 33 ∧ 0 + 1 < stepCount 33) ∧ (2 < stepCount 33 ∧ ¬ 2 + 1 < stepCount 33) ∧ stepCount 33 ≠ 0 := by decide

/-- The last 16 bytes below the counter limit, on either role. -/
theorem witness_TransformOutputBytes :
    let s := unit .decryptor .ready 1 4294967294 k2
    let e := unit .encryptor .ready 2 4294967294 k2
    let cin := List.replicate 16 (0 : Byte)
    (TransformsChunk (.decrypt cin) cin s ∧ TransformsChunk (.encrypt cin) cin e) ∧
      s.phase = .ready ∧ s.key = some k2 ∧ s.primFails = false ∧ s.ctr.toNat + (cin.length + 15) / 16 ≤ 4294967295 ∧
      e.phase = .ready ∧ e.key = some k2 ∧ e.primFails = false ∧ e.ctr.toNat + (cin.length + 15) / 16 ≤ 4294967295 :=
  ⟨⟨.inl ⟨rfl, rfl⟩, .inr ⟨rfl, rfl⟩⟩, by decide⟩

/-- Each failure, and one byte past the limit. -/
theorem witness_TransformFailsInOrder :
    TransformsChunk (.decrypt [0]) [0] (unit .decryptor .unconfigured 1 0 []) ∧
      TransformsChunk (.encrypt []) [] (unit .encryptor .uninitialized 1 0 []) ∧
      TransformsChunk (.decrypt [0]) [0] (unit .decryptor .ready 1 4294967295 k2) ∧
      (unit .decryptor .ready 1 4294967295 k2).ctr.toNat + ([0].length + 15) / 16 > 4294967295 :=
  ⟨.inl ⟨rfl, rfl⟩, .inr ⟨rfl, rfl⟩, .inl ⟨rfl, rfl⟩, by decide⟩

theorem witness_EmptyChunkChangesNothing :
    TransformsChunk (.decrypt []) [] (unit .decryptor .ready 1 4294967295 k2) ∧
      (unit .decryptor .ready 1 4294967295 k2).phase = .ready := ⟨.inl ⟨rfl, rfl⟩, rfl⟩

/-- The faulting side of EncryptEqualsDecrypt: Ready without a key, which no run reaches. -/
theorem witness_EncryptEqualsDecrypt :
    (∃ t, exec (.decrypt [0]) (unit .decryptor .ready 1 0 k2) = .next t) ∧
      exec (.decrypt [0]) { unit .decryptor .ready 1 0 k2 with key := none } = .fault (.noValue .key) := ⟨⟨_, rfl⟩, rfl⟩

/-- Two whole blocks and one byte, up to the counter limit. -/
theorem witness_ChunkBoundariesDoNotMatter :
    let s := unit .decryptor .ready 1 4294967292 k2
    let chunks := [List.replicate 16 (0 : Byte), [], List.replicate 17 0]
    (s.role = .decryptor ∧ s.phase = .ready ∧ s.key = some k2 ∧ s.primFails = false ∧
      s.ctr.toNat + (chunks.flatten.length + 15) / 16 ≤ 4294967295) ∧ AlignedChunks chunks :=
  ⟨by decide, by unfold AlignedChunks; decide⟩

/-- A first chunk that is no whole block. -/
theorem witness_NextChunkStartsNewBlock :
    let s := unit .decryptor .ready 1 4294967293 k2
    s.role = .decryptor ∧ s.phase = .ready ∧ s.key = some k2 ∧ s.primFails = false ∧
      s.ctr.toNat + ([0, 1, 2, 3, 4].length + 15) / 16 + ([5].length + 15) / 16 ≤ 4294967295 := by decide

theorem witness_EncResetProducesHeader :
    let s := unit .encryptor .uninitialized 1 0 []
    s.role = .encryptor ∧ s.phase ≠ .unconfigured ∧ s.primFails = false ∧ s.pw = some password ∧ s.strength = some 1 ∧
      keyLen 1 = some 16 ∧ saltLen 1 = some 8 ∧ salt8.length = 8 := ⟨rfl, by decide, rfl, rfl, rfl, rfl, rfl, rfl⟩

/-- Each failure of ENC_RESET: not constructed; codes 0, 4 and 255; a salt one byte short and one too long. -/
theorem witness_EncResetFailsInOrder :
    (unit .encryptor .unconfigured 0 0 []).phase = .unconfigured ∧
      (∀ st ∈ ([0, 4, 255] : List Byte), (unit .encryptor .ready st 0 k2).strength = some st ∧ saltLen st = none) ∧
      (List.replicate 7 (0 : Byte)).length ≠ 8 ∧ (List.replicate 9 (0 : Byte)).length ≠ 8 := by
  exact ⟨rfl, by decide, by decide, by decide⟩

/-- Two fresh units, and chunks cut differently on the two sides. -/
theorem witness_EncryptorDecryptorRoundTrip :
    let e0 := unit .encryptor .unconfigured 0 0 []
    let d0 := State.reset
    let xs := [List.replicate 16 (0x61 : Byte), [0x62]]
    (e0.role = .encryptor ∧ d0.role = .decryptor ∧ e0.prims = d0.prims ∧ e0.primFails = false ∧ d0.primFails = false) ∧
      (∃ e, exec (.new 1 password) e0 = .next e) ∧ (∃ d, exec (.new 1 password) d0 = .next d) ∧
      saltLen 1 = some 8 ∧ salt8.length = 8 ∧ AlignedChunks xs ∧ (xs.flatten.length + 15) / 16 ≤ 4294967295 ∧
      AlignedChunks [xs.flatten] :=
  ⟨by decide, ⟨_, rfl⟩, ⟨_, rfl⟩, rfl, rfl, by unfold AlignedChunks; decide, by decide, by unfold AlignedChunks; decide⟩

/-- Every command answers in some state: the hypothesis of the frame statements. -/
theorem witness_exec_answers :
    (∃ t, exec (.new 1 []) State.reset = .next t) ∧ (∃ t, exec .hdrsz (unit .decryptor .ready 1 0 k2) = .next t) ∧
      (∃ t, exec .gpflag State.reset = .next t) ∧ (∃ t, exec (.reset []) (unit .decryptor .ready 1 0 k2) = .next t) ∧
      (∃ t, exec (.decrypt [1]) (unit .decryptor .ready 1 0 k2) = .next t) ∧
      (∃ t, exec .rdauth (unit .decryptor .ready 1 0 k2) = .next t) ∧
      (∃ t, exec (.encReset []) (unit .encryptor .ready 1 0 k2) = .next t) ∧
      (∃ t, exec (.encrypt [1]) (unit .encryptor .ready 1 0 k2) = .next t) ∧
      (unit .decryptor .ready 1 0 k2).primFails = false :=
  ⟨⟨_, rfl⟩, ⟨_, rfl⟩, ⟨_, rfl⟩, ⟨_, rfl⟩, ⟨_, rfl⟩, ⟨_, rfl⟩, ⟨_, rfl⟩, ⟨_, rfl⟩, rfl⟩

/-- A NEW that changes the password, and a hardware reset that drops it. -/
theorem witness_OnlyNewWritesPassword :
    (∃ t, deliver [0x01, 0x02, 0x01, 0x00, 0x78] (unit .decryptor .ready 1 1 k2) = .next t ∧ t.pw ≠ some password) ∧
      ∃ t, step { unit .decryptor .ready 1 1 k2 with inputs := [.hardwareReset none] } = .next t ∧ t.pw ≠ some password :=
  ⟨⟨_, rfl, by decide⟩, ⟨_, rfl, by decide⟩⟩

/-- A query that answers, and one that stops in a state without its register. -/
theorem witness_AnswersDoNotDependOnKey :
    (∀ cin, Instr.rdauth ≠ .decrypt cin ∧ Instr.rdauth ≠ .encrypt cin) ∧
      (∃ t, exec .rdauth (unit .decryptor .ready 1 0 k2) = .next t) ∧
      exec .rdauth { unit .decryptor .ready 1 0 k2 with authKey := none } = .fault (.noValue .authKey) :=
  ⟨by simp, ⟨_, rfl⟩, rfl⟩

/-- Failing primitives met by RESET, ENC_RESET and a transform. -/
theorem witness_FailingPrimitiveIsFatal :
    let s := { unit .decryptor .ready 1 4294967294 k2 with primFails := true }
    s.primFails = true ∧ s.role = .decryptor ∧ s.phase ≠ .unconfigured ∧ s.phase = .ready ∧ s.strength = some 1 ∧
      saltLen 1 = some 8 ∧ (List.replicate 10 (0 : Byte)).length = 8 + 2 ∧
      TransformsChunk (.decrypt [0]) [0] s ∧ s.ctr.toNat + ([0].length + 15) / 16 ≤ 4294967295 ∧
      { s with role := .encryptor }.role = .encryptor ∧ salt8.length = 8 :=
  ⟨rfl, rfl, by decide, rfl, rfl, rfl, rfl, .inl ⟨rfl, rfl⟩, by decide, rfl, rfl⟩

/-- The invariants hold of a unit that is Ready with the keys it derived, and of the reset state with an event to come. -/
theorem witness_Invariant :
    Invariant { State.reset with inputs := [.command [0x03]] } ∧
      Invariant (arm (deriveKeys .standard password salt8 ⟨128, 16, 8⟩).encKey
        (deriveKeys .standard password salt8 ⟨128, 16, 8⟩).authKey (unit .decryptor .uninitialized 1 0 [])) ∧
      ∃ t, step { State.reset with inputs := [.command [0x03]] } = .next t := by
  refine ⟨?_, invariant_arm (s := unit .decryptor .uninitialized 1 0 []) (st := 1) (pw := password) ?_ (by decide) rfl rfl
    rfl rfl, ⟨_, rfl⟩⟩
  · constructor <;> simp [State.reset]
  · refine ⟨by decide, by decide, by decide, by decide, fun h => absurd h (by decide), by decide, fun p hp => ?_⟩
    cases hp; decide

theorem witness_StandardPbkdf2IsRuleR130 : (1 : Nat) ≤ 1 ∧ 1 ≤ Config.iter := by decide

end Sys2Proof.Tests
end

/-! The progress statement of the family 00_scope: in a state that meets the invariants of spec/10_state.md R27 no event
makes the unit stop (spec/00_scope.md R8; spec/60_exceptions.md R182). -/

namespace Sys2Proof.Machine

/-- R27 gives a value to every register some command reads in the state's phase. -/
theorem Invariant.not_readsNoValue {s : State} (h : Invariant s) : ¬ ReadsNoValue s := by
  rintro (⟨hconf, hst | hpw⟩ | ⟨hready, hkey | hauth⟩)
  · exact hconf (h.strength_none_iff.mp hst)
  · exact hconf (h.pw_none_iff.mp hpw)
  · exact h.key_none_iff.mp hkey hready
  · exact h.authKey_none_iff.mp hauth hready

theorem exec_next_of_invariant (i : Instr) {s : State} (h : Invariant s) : ∃ t, exec i s = .next t :=
  (exec_next_or_readsNoValue i s).resolve_right h.not_readsNoValue

/-- Every frame is answered: one the decoder rejects as any other (R77, R78). -/
theorem performFrame_next_of_invariant (f : Frame) {s : State} (h : Invariant s) : ∃ t, performFrame f s = .next t := by
  unfold performFrame
  split
  · exact exec_next_of_invariant _ h
  · exact ⟨_, rfl⟩

theorem perform_next_of_invariant (e : Event) {s : State} (h : Invariant s) : ∃ t, perform e s = .next t := by
  cases e with
  | command f => exact performFrame_next_of_invariant f h
  | hardwareReset abandoned => exact ⟨_, rfl⟩
  | primitives fails => exact ⟨_, rfl⟩

/-- Settles O47: the invariants do not speak of the events still to come, so they hold of the state on which the oldest
event is performed, and no event stops there. -/
theorem everyInvariantStateSteps : Obligations.EveryInvariantStateSteps := by
  intro s h
  unfold SafeStep step serve
  split
  · exact ⟨s, rfl⟩
  · exact perform_next_of_invariant _ (invariant_boundary h _ s.primFails)

end Sys2Proof.Machine

/-! What a step can do, and the operand bounds the decoder guarantees, for the family 10_state. -/

namespace Sys2Proof

theorem leNat_take_lt (n : Nat) (bs : Bytes) : leNat (bs.take n) < 256 ^ n :=
  (leNat_lt _).trans_le (Nat.pow_le_pow_right (by decide) (List.length_take_le n bs))

/-- The operand of an accepted frame has the length its length field holds, and the field's width bounds it (R72, R73). -/
theorem wellFormed_of_decode {f : Frame} {i : Instr} (h : decode f = .ok i) : i.wellFormed = true := by
  obtain ⟨op, rest, -, hlen, rfl⟩ := decode_ok_cases h
  have hpw := leNat_take_lt 2 (f.drop 2)
  have hchunk := leNat_take_lt 4 (f.drop 1)
  cases op with
  | hdrsz | gpflag | rdauth => rfl
  | new =>
    simp only [Opcode.format, expectedLength] at hlen
    simp only [assemble, Instr.wellFormed, Config.pwMax, List.length_drop, decide_eq_true_eq]
    omega
  | reset | decrypt | encReset | encrypt =>
    simp only [Opcode.format, expectedLength] at hlen
    simp only [assemble, Instr.wellFormed, Config.chunkMax, List.length_drop, decide_eq_true_eq]
    omega

namespace Machine

/-- Everything a step can do: nothing without an event (log 2), a hardware reset, a change of the fault line, a decoded
command, or the answer to a frame the decoder rejects. -/
theorem step_cases {s t : State} (h : step s = .next t) :
    (s.inputs = [] ∧ t = s) ∨
    ∃ e rest, s.inputs = e :: rest ∧
      ((∃ a, e = .hardwareReset a ∧ t = hardReset { s with inputs := rest }) ∨
       (∃ fails, e = .primitives fails ∧ t = { s with inputs := rest, primFails := fails }) ∨
       (∃ f i, e = .command f ∧ decode f = .ok i ∧ exec i { s with inputs := rest } = .next t) ∨
       (∃ f, e = .command f ∧ t = respond .illegalCommand [] { s with inputs := rest })) := by
  unfold step serve at h
  split at h
  · next hin => cases h; exact .inl ⟨hin, rfl⟩
  · next e rest hin =>
    refine .inr ⟨e, rest, hin, ?_⟩
    cases e with
    | hardwareReset a => cases h; exact .inl ⟨a, rfl, rfl⟩
    | primitives fails => cases h; exact .inr (.inl ⟨fails, rfl, rfl⟩)
    | command f =>
      simp only [perform, performFrame] at h
      split at h
      · next i hdec => exact .inr (.inr (.inl ⟨f, i, rfl, hdec, h⟩))
      · cases h; exact .inr (.inr (.inr ⟨f, rfl, rfl⟩))

end Machine

end Sys2Proof

/-! What an answered command does to the six registers (spec/10_state.md R20, "written by"). -/

namespace Sys2Proof.Machine

/-- The commands by what they may write: NEW all six registers, a query none, a derivation PHASE, KEY, AUTHKEY and CTR, a
transform CTR. -/
inductive Family where
  | construction | query | derivation | transform

def family : Instr → Family
  | .new _ _ => .construction
  | .hdrsz => .query
  | .gpflag => .query
  | .reset _ => .derivation
  | .decrypt _ => .transform
  | .rdauth => .query
  | .encReset _ => .derivation
  | .encrypt _ => .transform

theorem family_of_isDerivation {i : Instr} {operand : Bytes} {len : StrengthRow → Nat} {s : State}
    (h : IsDerivation i operand len s) : family i = .derivation := by
  obtain ⟨rfl, -⟩ | ⟨rfl, -⟩ := h <;> rfl

theorem family_of_transformsChunk {i : Instr} {cin : Bytes} {s : State} (h : TransformsChunk i cin s) :
    family i = .transform := by
  obtain ⟨rfl, -⟩ | ⟨rfl, -⟩ := h <;> rfl

theorem eq_reset_or_encReset_of_family {i : Instr} (h : family i = .derivation) :
    ∃ x, i = .reset x ∨ i = .encReset x := by
  cases i with
  | reset x => exact ⟨x, .inl rfl⟩
  | encReset x => exact ⟨x, .inr rfl⟩
  | new | hdrsz | gpflag | decrypt | rdauth | encrypt => cases h

theorem eq_new_of_family {i : Instr} (h : family i = .construction) : ∃ st pw, i = .new st pw := by
  cases i with
  | new st pw => exact ⟨st, pw, rfl⟩
  | hdrsz | gpflag | reset | decrypt | rdauth | encReset | encrypt => cases h

/-- `RegisterEffect i s u`: `u` is `s` after the register writes that `i` can make when it answers, whatever it answers. -/
inductive RegisterEffect (i : Instr) (s : State) : State → Prop
  | unchanged (hi : family i ≠ .construction) : RegisterEffect i s s
  | constructed (st pw) (hi : i = .new st pw) : RegisterEffect i s (construct st pw s)
  | dropped (hi : family i = .derivation ∨ (family i = .transform ∧ s.primFails = true))
      (hp : s.phase ≠ .unconfigured) : RegisterEffect i s (dropCipher s)
  | armed (st row pw salt) (hi : family i = .derivation) (hp : s.phase ≠ .unconfigured) (hst : s.strength = some st)
      (hrow : paramRow st = some row) (hpw : s.pw = some pw) (hl : salt.length = row.saltBytes) :
      RegisterEffect i s (arm (deriveKeys s.prims pw salt row).encKey (deriveKeys s.prims pw salt row).authKey s)
  | advanced (cin) (hi : TransformsChunk i cin s) (hp : s.phase = .ready)
      (hc : s.ctr.toNat + stepCount cin.length ≤ Config.ctrMax) :
      RegisterEffect i s { s with ctr := BitVec.ofNat 32 (s.ctr.toNat + stepCount cin.length) }

theorem Answered.registerEffect {i : Instr} {s u : State} {e : Status} {d : Bytes} (h : Answered i s e d u) :
    RegisterEffect i s u := by
  cases h with
  | constructed st pw => exact .constructed st pw rfl
  | headerSize | unsupportedQuery | flagValue | authKeyRead => exact .unchanged nofun
  | wrongRole _ _ hi | notConfigured _ _ hi =>
    refine .unchanged fun hnew => ?_
    obtain ⟨st, pw, rfl⟩ := eq_new_of_family hnew
    cases hi
  | notReady _ _ hi =>
    obtain rfl | ⟨cin, hi⟩ := hi
    · exact .unchanged nofun
    · exact .unchanged (by simp [family_of_transformsChunk hi])
  | counterOverflow _ _ _ hi | emptyChunk _ _ hi => exact .unchanged (by simp [family_of_transformsChunk hi])
  | transformFault _ cin _ hi hp hf => exact .dropped (.inr ⟨family_of_transformsChunk hi, hf⟩) (by simp [hp])
  | transformed _ cin _ _ _ hi hp hc => exact .advanced cin hi hp hc
  | unsupportedReset _ _ _ _ _ hi hp | headerLength _ _ _ _ _ _ hi hp | deriveFault _ _ _ _ hi hp =>
    exact .dropped (.inl (family_of_isDerivation hi)) hp
  | badPassword _ _ _ _ _ _ hp => exact .dropped (.inl rfl) hp
  | verified hdr _ st row pw _ hp hst hrow hl _ hpw =>
    exact .armed st row pw _ rfl hp hst hrow hpw (memRead_length_of_le (by rw [hl, hdrLen]; omega))
  | produced salt _ st row pw _ hp hst hrow hl _ hpw => exact .armed st row pw salt rfl hp hst hrow hpw hl

/-- A command that answers makes its register writes and delivers one response. -/
theorem exec_registerEffect {i : Instr} {s t : State} (h : exec i s = .next t) :
    ∃ e d u, RegisterEffect i s u ∧ t = respond e d u := by
  obtain ⟨e, d, u, ha, rfl⟩ := exec_answered h
  exact ⟨e, d, u, ha.registerEffect, rfl⟩

namespace RegisterEffect

variable {i : Instr} {s u : State}

/-- No command writes a build parameter, the fault line, the events to come or a response already delivered. -/
theorem boundary (h : RegisterEffect i s u) :
    u.role = s.role ∧ u.prims = s.prims ∧ u.primFails = s.primFails ∧ u.inputs = s.inputs ∧ u.outputs = s.outputs := by
  cases h <;> exact ⟨rfl, rfl, rfl, rfl, rfl⟩

theorem eq_of_query (h : RegisterEffect i s u) (hq : family i = .query) : u = s := by
  cases h with
  | unchanged => rfl
  | constructed _ _ hi => subst hi; cases hq
  | dropped hi => simp [hq] at hi
  | armed _ _ _ _ hi => simp [hq] at hi
  | advanced cin hi => simp [family_of_transformsChunk hi] at hq

/-- Only NEW writes PW and STRENGTH (R21, R22). -/
theorem new_or_pw_strength (h : RegisterEffect i s u) :
    (∃ st pw, i = .new st pw ∧ u.pw = some pw ∧ u.strength = some st) ∨ (u.pw = s.pw ∧ u.strength = s.strength) := by
  cases h with
  | constructed st pw hi => exact .inl ⟨st, pw, hi, rfl, rfl⟩
  | unchanged | dropped | armed | advanced => exact .inr ⟨rfl, rfl⟩

theorem pw_strength_of_family_ne (h : RegisterEffect i s u) (hi : family i ≠ .construction) :
    u.pw = s.pw ∧ u.strength = s.strength := by
  obtain ⟨st, pw, rfl, -⟩ | hsame := h.new_or_pw_strength
  · exact absurd rfl hi
  · exact hsame

/-- A derivation writes CTR only where it arms the cipher. -/
theorem derivation_ctr (h : RegisterEffect i s u) (hd : family i = .derivation) (hp : u.phase ≠ .ready) :
    u.ctr = s.ctr := by
  cases h with
  | unchanged | dropped => rfl
  | constructed _ _ hi => subst hi; cases hd
  | armed => exact absurd rfl hp
  | advanced _ hi => simp [family_of_transformsChunk hi] at hd

/-- A transform whose primitives do not fail writes CTR alone. -/
theorem transform_keys (h : RegisterEffect i s u) (ht : family i = .transform) (hf : s.primFails = false) :
    u.phase = s.phase ∧ u.key = s.key ∧ u.authKey = s.authKey := by
  cases h with
  | unchanged | advanced => exact ⟨rfl, rfl, rfl⟩
  | constructed _ _ hi => subst hi; cases ht
  | dropped hi => simp [ht, hf] at hi
  | armed _ _ _ _ hi => simp [ht] at hi

/-- R24, R146: the new counter of a transform fits its 32 bits, so it is the sum of natural numbers. -/
theorem ctr_cases (h : RegisterEffect i s u) :
    u.ctr = s.ctr ∨
    (u.ctr = 0 ∧ ((∃ st pw, i = .new st pw) ∨ family i = .derivation)) ∨
    ∃ cin, TransformsChunk i cin s ∧ u.ctr.toNat = s.ctr.toNat + stepCount cin.length := by
  cases h with
  | unchanged | dropped => exact .inl rfl
  | constructed st pw hi => exact .inr (.inl ⟨rfl, .inl ⟨st, pw, hi⟩⟩)
  | armed _ _ _ _ hi => exact .inr (.inl ⟨rfl, .inr hi⟩)
  | advanced cin hi _ hc =>
    refine .inr (.inr ⟨cin, hi, ?_⟩)
    rw [BitVec.toNat_ofNat, Nat.mod_eq_of_lt (hc.trans_lt (by decide))]

end RegisterEffect

end Sys2Proof.Machine

/-! The invariants of spec/10_state.md R27: they hold after hardware reset and every step keeps them. -/

namespace Sys2Proof.Machine

theorem invariant_hardReset (s : State) : Invariant (hardReset s) := by
  constructor <;> simp

theorem invariant_construct {pw : Bytes} (h : pw.length ≤ Config.pwMax) (st : Byte) (s : State) :
    Invariant (construct st pw s) := by
  constructor <;> simp [h]

theorem invariant_advance {s : State} (h : Invariant s) (hp : s.phase = .ready) (ctr : Word32) :
    Invariant { s with ctr := ctr } := by
  obtain ⟨hpw, hstrength, hkey, hauthKey, hderived, -, hbound⟩ := h
  exact ⟨hpw, hstrength, hkey, hauthKey, hderived, fun hu => by simp [hp] at hu, hbound⟩

theorem RegisterEffect.keeps_invariant {i : Instr} {s u : State} (h : RegisterEffect i s u) (hinv : Invariant s)
    (hwf : i.wellFormed = true) : Invariant u := by
  cases h with
  | unchanged => exact hinv
  | constructed st pw hi =>
    subst hi
    exact invariant_construct (by simpa [Instr.wellFormed] using hwf) st s
  | dropped _ hp => exact invariant_dropCipher hinv hp
  | armed st row pw salt _ hp hst hrow hpw hl => exact invariant_arm hinv hp hst hrow hpw hl
  | advanced _ _ hp => exact invariant_advance hinv hp _

theorem exec_keeps_invariant {i : Instr} {s t : State} (hinv : Invariant s) (hwf : i.wellFormed = true)
    (h : exec i s = .next t) : Invariant t := by
  obtain ⟨e, d, u, heff, rfl⟩ := exec_registerEffect h
  exact invariant_respond (heff.keeps_invariant hinv hwf)

/-- Settles O46, by cases on the event: the one premise a command needs beyond the invariants, PW_MAX for NEW's password,
comes from the decoder. -/
theorem invariantKeptByEveryStep : Obligations.InvariantKeptByEveryStep := by
  intro s t hinv hstep
  have hrest : ∀ rest, Invariant { s with inputs := rest } := fun rest => invariant_boundary hinv rest s.primFails
  obtain ⟨-, rfl⟩ | ⟨e, rest, -, ⟨a, -, rfl⟩ | ⟨fails, -, rfl⟩ | ⟨f, i, -, hdec, hexec⟩ | ⟨f, -, rfl⟩⟩ := step_cases hstep
  · exact hinv
  · exact invariant_hardReset _
  · exact invariant_boundary hinv rest fails
  · exact exec_keeps_invariant (hrest rest) (wellFormed_of_decode hdec) hexec
  · exact invariant_respond (hrest rest)

/-- Settles O7: `State.reset` writes out the register values of R36. -/
theorem resetRegisters : Obligations.ResetRegisters := ⟨rfl, rfl, rfl, rfl, rfl, rfl⟩

/-- Settles O45: `State.reset` is a state right after a hardware reset. -/
theorem invariantHoldsAtReset : Obligations.InvariantHoldsAtReset := invariant_hardReset State.reset

end Sys2Proof.Machine

/-! What each command leaves unchanged, the next phase and the counter (spec/10_state.md R20 to R26, R33). -/

namespace Sys2Proof.Machine

/-- Settles O37, from the frame of each family of commands. -/
theorem registerFrame : Obligations.RegisterFrame := by
  intro i s t h
  obtain ⟨e, d, u, heff, rfl⟩ := exec_registerEffect h
  obtain ⟨hrole, hprims, hfails, hinputs, houtputs⟩ := heff.boundary
  refine ⟨⟨hrole, hprims, hfails, hinputs, responseFrame e d, by simp [houtputs]⟩, ?_⟩
  cases i with
  | new => trivial
  | hdrsz | gpflag | rdauth =>
    obtain rfl := heff.eq_of_query rfl
    exact ⟨rfl, rfl, rfl, rfl, rfl, rfl⟩
  | reset | encReset =>
    obtain ⟨hpw, hst⟩ := heff.pw_strength_of_family_ne nofun
    exact ⟨hpw, hst, heff.derivation_ctr rfl⟩
  | decrypt | encrypt =>
    obtain ⟨hpw, hst⟩ := heff.pw_strength_of_family_ne nofun
    exact ⟨hpw, hst, heff.transform_keys rfl⟩

/-- Settles O40: the limit checked before the loop (R146) keeps the sum below `2^32`. -/
theorem counterNeverWraps : Obligations.CounterNeverWraps := by
  intro i s t h
  obtain ⟨e, d, u, heff, rfl⟩ := exec_registerEffect h
  obtain hsame | ⟨hzero, hnew | hder⟩ | ⟨cin, hi, hsum⟩ := heff.ctr_cases
  · exact .inl hsame
  · exact .inr (.inl ⟨hzero, .inl hnew⟩)
  · exact .inr (.inl ⟨hzero, .inr (eq_reset_or_encReset_of_family hder)⟩)
  · exact .inr (.inr ⟨cin, hi.imp And.left And.left, hsum⟩)

/-- Settles O41: of the events only a hardware reset and a command write registers, and of the commands only NEW writes
these two. -/
theorem onlyNewWritesPassword : Obligations.OnlyNewWritesPassword := by
  intro s t hstep hchanged
  obtain ⟨-, rfl⟩ | ⟨e, rest, hin, ⟨a, he, -⟩ | ⟨fails, -, rfl⟩ | ⟨f, i, he, hdec, hexec⟩ | ⟨f, -, rfl⟩⟩ := step_cases hstep
  · simp at hchanged
  · exact ⟨e, rest, hin, .inl ⟨a, he⟩⟩
  · simp at hchanged
  · obtain ⟨_, _, u, heff, rfl⟩ := exec_registerEffect hexec
    obtain ⟨st, pw, rfl, hpw, hst⟩ | ⟨hpw, hst⟩ := heff.new_or_pw_strength
    · exact ⟨e, rest, hin, .inr ⟨f, st, pw, he, hdec, hpw, hst⟩⟩
    · simp [hpw, hst] at hchanged
  · simp at hchanged

/-- RESET and ENC_RESET either are rejected before they begin, in the phase they met, or leave phase Ready exactly on `OK` and
Uninitialized otherwise (R33, R127, R161). -/
theorem Answered.derivation_phase {i : Instr} {s u : State} {e : Status} {d : Bytes} (h : Answered i s e d u)
    (hi : family i = .derivation) :
    ((i.opcode.legalFor s.role = false ∨ s.phase = .unconfigured) ∧ u.phase = s.phase) ∨
    (¬ (i.opcode.legalFor s.role = false ∨ s.phase = .unconfigured) ∧
      ((e = .ok ∧ u.phase = .ready) ∨ (e ≠ .ok ∧ u.phase = .uninitialized))) := by
  have hbegun : ∀ {operand len}, IsDerivation i operand len s → s.phase ≠ .unconfigured →
      ¬ (i.opcode.legalFor s.role = false ∨ s.phase = .unconfigured) := by
    rintro _ _ (⟨rfl, -, hr⟩ | ⟨rfl, -, hr⟩) hp <;> simp [Instr.opcode, Opcode.legalFor, hr, hp]
  cases h with
  | constructed | headerSize | unsupportedQuery | flagValue | authKeyRead => cases hi
  | wrongRole _ _ hr => exact .inl ⟨.inl hr, rfl⟩
  | notConfigured _ _ _ hp => exact .inl ⟨.inr hp, rfl⟩
  | notReady _ _ hn =>
    obtain rfl | ⟨cin, hn⟩ := hn
    · cases hi
    · simp [family_of_transformsChunk hn] at hi
  | counterOverflow _ _ _ ht | emptyChunk _ _ ht | transformFault _ _ _ ht | transformed _ _ _ _ _ ht =>
    simp [family_of_transformsChunk ht] at hi
  | unsupportedReset _ _ _ _ _ hd hp | headerLength _ _ _ _ _ _ hd hp | deriveFault _ _ _ _ hd hp =>
    exact .inr ⟨hbegun hd hp, .inr ⟨nofun, rfl⟩⟩
  | badPassword _ _ _ _ _ hr hp => exact .inr ⟨hbegun (.inl ⟨rfl, rfl, hr⟩) hp, .inr ⟨nofun, rfl⟩⟩
  | verified _ _ _ _ _ hr hp => exact .inr ⟨hbegun (.inl ⟨rfl, rfl, hr⟩) hp, .inl ⟨rfl, rfl⟩⟩
  | produced _ _ _ _ _ hr hp => exact .inr ⟨hbegun (.inr ⟨rfl, rfl, hr⟩) hp, .inl ⟨rfl, rfl⟩⟩

/-- A successful RESET carries no data (R120). -/
theorem Answered.reset_ok_data {hdr d : Bytes} {s u : State} (h : Answered (.reset hdr) s .ok d u) : d = [] := by
  cases h with
  | verified => rfl
  | emptyChunk => rfl
  | transformed _ _ _ _ _ hi => cases family_of_transformsChunk hi

theorem reset_illegal_iff {hdr : Bytes} {role : Role} :
    (Instr.reset hdr).opcode.legalFor role = false ↔ role = .encryptor := by
  cases role <;> simp [Instr.opcode, Opcode.legalFor]

theorem encReset_illegal_iff {salt : Bytes} {role : Role} :
    (Instr.encReset salt).opcode.legalFor role = false ↔ role = .decryptor := by
  cases role <;> simp [Instr.opcode, Opcode.legalFor]

/-- The response delivered tells the status and the data. -/
theorem respond_outputs_eq_iff {s u : State} (h : u.outputs = s.outputs) {e e' : Status} {d d' : Bytes} :
    (respond e d u).outputs = s.outputs ++ [responseFrame e' d'] ↔ e = e' ∧ d = d' := by
  constructor
  · intro heq
    rw [respond_outputs, h] at heq
    exact responseFrame_injective (List.singleton_inj.mp (List.append_cancel_left heq))
  · rintro ⟨rfl, rfl⟩
    rw [respond_outputs, h]

/-- Settles O39: the families' frames give every row but those of RESET and ENC_RESET, which their status decides. -/
theorem phaseTransitions : Obligations.PhaseTransitions := by
  intro i s t hf h
  obtain ⟨e, d, u, ha, rfl⟩ := exec_answered h
  have heff := ha.registerEffect
  obtain ⟨-, -, -, -, houtputs⟩ := heff.boundary
  cases i with
  | new => exact (congrArg State.phase (Host.Outcome.next.inj h)).symm
  | hdrsz | gpflag | rdauth =>
    obtain rfl := heff.eq_of_query rfl
    rfl
  | decrypt | encrypt =>
    obtain ⟨hphase, -⟩ := heff.transform_keys rfl hf
    exact hphase
  | reset =>
    have hok : e = .ok ∧ d = [] ↔ e = .ok := and_iff_left_of_imp (by rintro rfl; exact ha.reset_ok_data)
    have hphase := ha.derivation_phase rfl
    rw [reset_illegal_iff, ← ite_prop_iff_or] at hphase
    simpa only [Ne, respond_outputs_eq_iff houtputs, hok, respond_phase] using hphase
  | encReset =>
    have hok : (∃ h, e = .ok ∧ d = h) ↔ e = .ok := ⟨fun ⟨_, he, _⟩ => he, fun he => ⟨d, he, rfl⟩⟩
    have hphase := ha.derivation_phase rfl
    rw [encReset_illegal_iff, ← ite_prop_iff_or] at hphase
    simpa only [Ne, ← not_exists, respond_outputs_eq_iff houtputs, hok, respond_phase] using hphase

end Sys2Proof.Machine

/-! No command but the transforms reads KEY (spec/10_state.md R25). -/

namespace Sys2Proof.Machine

/-- What the host sees of a result: the responses delivered, or why the unit stopped. -/
def observed : Result → Host.Outcome (List Frame) Fault Refusal
  | .next t => .next t.outputs
  | .fault r => .fault r
  | .refused r => .refused r

section

variable {s : State} {k k' : Result} (key : Option Bytes)

theorem observed_whenRole_key (role : Role) (h : observed k' = observed k) :
    observed (whenRole role { s with key := key } k') = observed (whenRole role s k) := by
  by_cases hr : s.role = role
  · rwa [whenRole_self hr, whenRole_self (s := { s with key := key }) hr]
  · rw [whenRole, whenRole, if_neg hr, if_neg hr]; rfl

theorem observed_whenConfigured_key (h : observed k' = observed k) :
    observed (whenConfigured { s with key := key } k') = observed (whenConfigured s k) := by
  by_cases hp : s.phase = .unconfigured
  · rw [whenConfigured, whenConfigured, if_pos hp, if_pos hp]; rfl
  · rwa [whenConfigured_of_ne hp, whenConfigured_of_ne (s := { s with key := key }) hp]

theorem observed_whenReady_key (h : observed k' = observed k) :
    observed (whenReady { s with key := key } k') = observed (whenReady s k) := by
  refine observed_whenConfigured_key key ?_
  by_cases hp : s.phase = .ready
  · rwa [if_pos hp, if_pos hp]
  · rw [if_neg hp, if_neg hp]; rfl

theorem observed_readReg_congr {α : Type} {r : OptReg} {v : Option α} {f f' : α → Result}
    (h : ∀ x, observed (f' x) = observed (f x)) : observed (readReg r v f') = observed (readReg r v f) := by
  cases v with
  | none => rfl
  | some x => exact h x

/-- A derivation reads PW and STRENGTH, and overwrites KEY or leaves it. -/
theorem observed_withDerivedKeys_key {operand : Bytes} {len : StrengthRow → Nat}
    {f f' : StrengthRow → Bytes → DerivedKeys → Result}
    (h : ∀ row salt keys, observed (f' row salt keys) = observed (f row salt keys)) :
    observed (withDerivedKeys operand len { s with key := key } f') = observed (withDerivedKeys operand len s f) := by
  refine observed_whenConfigured_key key (observed_readReg_congr fun st => ?_)
  cases paramRow st with
  | none => rfl
  | some row =>
    dsimp only
    split
    · split
      · rfl
      · exact observed_readReg_congr fun password => h _ _ _
    · rfl

theorem observed_exec_key {i : Instr} (hi : ∀ cin, i ≠ .decrypt cin ∧ i ≠ .encrypt cin) :
    observed (exec i { s with key := key }) = observed (exec i s) := by
  cases i with
  | decrypt cin => exact absurd rfl (hi cin).1
  | encrypt cin => exact absurd rfl (hi cin).2
  | new | gpflag => rfl
  | hdrsz =>
    refine observed_whenConfigured_key key (observed_readReg_congr fun st => ?_)
    cases paramRow st <;> rfl
  | rdauth => exact observed_whenReady_key key (observed_readReg_congr fun _ => rfl)
  | reset hdr =>
    refine observed_whenRole_key key _ (observed_withDerivedKeys_key key fun row _ keys => ?_)
    dsimp only
    split <;> rfl
  | encReset salt => exact observed_whenRole_key key _ (observed_withDerivedKeys_key key fun _ _ _ => rfl)

end

theorem next_of_observed_next {r : Result} {outs : List Frame} (h : observed r = .next outs) :
    ∃ t, r = .next t ∧ t.outputs = outs := by
  cases r with
  | next t => cases h; exact ⟨t, rfl, rfl⟩
  | fault | refused => cases h

theorem fault_of_observed_fault {r : Result} {e : Fault} (h : observed r = .fault e) : r = .fault e := by
  cases r with
  | fault => cases h; rfl
  | next | refused => cases h

/-- Settles O42: each shared operation but the transform gives the host the same whatever KEY holds. -/
theorem answersDoNotDependOnKey : Obligations.AnswersDoNotDependOnKey := by
  intro i s key hi
  have hobs := observed_exec_key (s := s) key hi
  constructor
  · intro t h
    exact next_of_observed_next (by rw [hobs, h]; rfl)
  · intro r h
    exact fault_of_observed_fault (by rw [hobs, h]; rfl)

end Sys2Proof.Machine

/-! The order of effects at the command port and the queries' repeatability, for the family 20_memory. -/

namespace Sys2Proof.Machine

theorem step_command {s : State} {f : Frame} {rest : List Event} (h : s.inputs = .command f :: rest) :
    step s = performFrame f { s with inputs := rest } := by
  rw [step, serve, h]
  rfl

theorem performFrame_of_decode {f : Frame} {i : Instr} (h : decode f = .ok i) (s : State) :
    performFrame f s = exec i s := by
  rw [performFrame, h]

/-- Settles O9: the port hands the decoded command to its meaning. -/
theorem stepRunsDecodedCommand : Obligations.StepRunsDecodedCommand := by
  intro s f rest i hin hdec
  rw [step_command hin, performFrame_of_decode hdec]

/-- Settles O10: the model's choice of an idle step (log 2). -/
theorem stepWithoutEventChangesNothing : Obligations.StepWithoutEventChangesNothing := by
  intro s hin
  rw [step, serve, hin]

/-! What HDRSZ and RDAUTH answer, by the registers they read (R111, R129). -/

section

variable {s : State}

theorem exec_hdrsz_of_unconfigured (hp : s.phase = .unconfigured) :
    exec .hdrsz s = .next (respond .notConfigured [] s) := if_pos hp

theorem exec_hdrsz_of_unsupported {st : Byte} (hp : s.phase ≠ .unconfigured) (hst : s.strength = some st)
    (hrow : paramRow st = none) : exec .hdrsz s = .next (respond .unsupportedEncryption [st] s) := by
  simp [exec, execHdrsz, hp, hst, hrow]

theorem exec_hdrsz_of_supported {st : Byte} {row : StrengthRow} (hp : s.phase ≠ .unconfigured)
    (hst : s.strength = some st) (hrow : paramRow st = some row) :
    exec .hdrsz s = .next (respond .ok [BitVec.ofNat 8 (hdrLen row)] s) := by
  simp [exec, execHdrsz, hp, hst, hrow]

theorem exec_hdrsz_of_strength_none (hp : s.phase ≠ .unconfigured) (hst : s.strength = none) :
    exec .hdrsz s = .fault (.noValue .strength) := by
  simp [exec, execHdrsz, hp, hst]

theorem exec_rdauth_of_unconfigured (hp : s.phase = .unconfigured) :
    exec .rdauth s = .next (respond .notConfigured [] s) := if_pos hp

theorem exec_rdauth_of_uninitialized (hp : s.phase = .uninitialized) :
    exec .rdauth s = .next (respond .notReady [] s) := by
  simp [exec, execRdauth, whenReady, hp]

theorem exec_rdauth_of_ready (hp : s.phase = .ready) :
    exec .rdauth s = readReg .authKey s.authKey fun ak => .next (respond .ok ak s) := whenReady_of_ready hp

end

/-- A query that answers gives the same answer in every state that agrees on the three registers queries read: PHASE,
STRENGTH and AUTHKEY. -/
theorem query_answer_congr {i : Instr} {s t : State} (hq : family i = .query) (h : exec i s = .next t) :
    ∃ e d, ∀ s' : State, s'.phase = s.phase → s'.strength = s.strength → s'.authKey = s.authKey →
      exec i s' = .next (respond e d s') := by
  cases i with
  | new | reset | decrypt | encReset | encrypt => cases hq
  | gpflag => exact ⟨_, _, fun _ _ _ _ => rfl⟩
  | hdrsz =>
    by_cases hp : s.phase = .unconfigured
    · exact ⟨_, _, fun s' hphase _ _ => exec_hdrsz_of_unconfigured (hphase.trans hp)⟩
    · cases hst : s.strength with
      | none =>
        rw [exec_hdrsz_of_strength_none hp hst] at h
        cases h
      | some st =>
        cases hrow : paramRow st with
        | none =>
          exact ⟨_, _, fun s' hphase hstrength _ => exec_hdrsz_of_unsupported (hphase.trans_ne hp) hstrength hrow⟩
        | some row =>
          exact ⟨_, _, fun s' hphase hstrength _ => exec_hdrsz_of_supported (hphase.trans_ne hp) hstrength hrow⟩
  | rdauth =>
    cases hp : s.phase with
    | unconfigured => exact ⟨_, _, fun s' hphase _ _ => exec_rdauth_of_unconfigured hphase⟩
    | uninitialized => exact ⟨_, _, fun s' hphase _ _ => exec_rdauth_of_uninitialized hphase⟩
    | ready =>
      rw [exec_rdauth_of_ready hp] at h
      cases hk : s.authKey with
      | none =>
        rw [hk] at h
        cases h
      | some ak => exact ⟨_, _, fun s' hphase _ hauthKey => by rw [exec_rdauth_of_ready hphase, hauthKey, readReg_some]⟩

/-- Settles O17: a query's answer writes none of the registers queries read (R58), so it is also the next one's answer. -/
theorem queriesRepeat : Obligations.QueriesRepeat := by
  intro i s t hi h
  have hq : family i = .query := by obtain rfl | rfl | rfl := hi <;> rfl
  obtain ⟨e, d, hanswer⟩ := query_answer_congr hq h
  obtain rfl : t = respond e d s := Host.Outcome.next.inj (h.symm.trans (hanswer s rfl rfl rfl))
  exact ⟨rfl, responseFrame e d, rfl, hanswer _ rfl rfl rfl⟩

end Sys2Proof.Machine

/-! The encoder and the decoder undo each other, for the family 30_encoding. -/

namespace Sys2Proof

@[simp] theorem opcode_assemble (op : Opcode) (f : Frame) : (assemble op f).opcode = op := by
  cases op <;> rfl

/-- Byte 0 of an accepted frame names its command's row (R75). -/
theorem opcodeOfByte_of_decode {b : Byte} {more : Bytes} {i : Instr} (h : decode (b :: more) = .ok i) :
    opcodeOfByte b = some i.opcode := by
  obtain ⟨op, rest, hf, -, rfl⟩ := decode_ok_cases h
  obtain ⟨rfl, rfl⟩ := List.cons.inj hf
  rw [opcodeOfByte_byte, opcode_assemble]

theorem encodedShape : ∀ i : Instr, Laws.EncodedShape.Statement i
  | .new strength password => Laws.EncodedShape.new strength password
  | .hdrsz => Laws.EncodedShape.hdrsz
  | .gpflag => Laws.EncodedShape.gpflag
  | .reset hdr => Laws.EncodedShape.reset hdr
  | .decrypt cin => Laws.EncodedShape.decrypt cin
  | .rdauth => Laws.EncodedShape.rdauth
  | .encReset salt => Laws.EncodedShape.encReset salt
  | .encrypt cin => Laws.EncodedShape.encrypt cin

/-- The operands stand in the frame behind a head of fixed length (R71 to R73, R76), whatever the length field can hold. -/
theorem assemble_encode (i : Instr) : assemble i.opcode (encode i) = i := by
  cases i <;> rfl

/-- Settles O1: the frame begins with the command's opcode and has the length the format asks for, so the decoder assembles
its operands. -/
theorem decodeOfEncode : Obligations.DecodeOfEncode := by
  intro i hwf
  obtain ⟨hhead, hlen⟩ := encodedShape i
  obtain ⟨rest, hframe⟩ := List.head?_eq_some_iff.mp hhead
  have hlen := hlen hwf
  have hoperands := assemble_encode i
  rw [hframe] at hlen hoperands ⊢
  rw [decode_of_length (opcodeOfByte_byte _) hlen, hoperands]

/-- Bytes that begin with a `k`-byte count of the bytes behind it are the encoding of that count, then those bytes. -/
theorem le_length_drop_append {k : Nat} {bs : Bytes} (h : bs.length = k + leNat (bs.take k)) :
    le k (bs.drop k).length ++ bs.drop k = bs := by
  have htake : (bs.take k).length = k := List.length_take_of_le (by omega)
  have hcount : (bs.drop k).length = leNat (bs.take k) := by rw [List.length_drop]; omega
  calc le k (bs.drop k).length ++ bs.drop k
      = le (bs.take k).length (leNat (bs.take k)) ++ bs.drop k := by rw [hcount, htake]
    _ = bs.take k ++ bs.drop k := by rw [le_leNat]
    _ = bs := List.take_append_drop k bs

/-- A frame of the length its format asks for is the frame of the command its operands make (R79). -/
theorem encode_assemble {op : Opcode} {rest : Bytes}
    (h : (op.byte :: rest).length = expectedLength op.format (op.byte :: rest)) :
    encode (assemble op (op.byte :: rest)) = op.byte :: rest := by
  cases op with
  | hdrsz | gpflag | rdauth =>
    obtain rfl : rest = [] := List.length_eq_zero_iff.mp (Nat.succ.inj h)
    rfl
  | new =>
    cases rest with
    | nil => cases h
    | cons strength bs =>
      have hfield : bs.length = 2 + leNat (bs.take 2) := by
        simp only [Opcode.format, expectedLength, List.length_cons, List.drop_succ_cons, List.drop_zero] at h
        omega
      exact congrArg (Opcode.new.byte :: strength :: ·) (le_length_drop_append hfield)
  | reset | decrypt | encReset | encrypt =>
    have hfield : rest.length = 4 + leNat (rest.take 4) := by
      simp only [Opcode.format, expectedLength, List.length_cons, List.drop_succ_cons, List.drop_zero] at h
      omega
    exact congrArg (_ :: ·) (le_length_drop_append hfield)

/-- Settles O2: the length check leaves no byte of the frame out of the command. -/
theorem encodeOfDecode : Obligations.EncodeOfDecode := by
  intro f i h
  refine ⟨?_, wellFormed_of_decode h⟩
  obtain ⟨op, rest, rfl, hlen, rfl⟩ := decode_ok_cases h
  exact encode_assemble hlen

/-- Settles O3 by running the decoder on the eight frames. -/
theorem spelledOutFramesDecode : Obligations.SpelledOutFramesDecode := by
  unfold Obligations.SpelledOutFramesDecode
  decide

end Sys2Proof

/-! The decoder's checks are the rejections that R77 and R78 list. -/

namespace Sys2Proof

/-- A field's value byte by byte (R76), also where the frame ends within the field. -/
theorem leNat_take_drop_succ (f : Bytes) (k n : Nat) :
    leNat ((f.drop k).take (n + 1)) = (f.getD k 0).toNat + 256 * leNat ((f.drop (k + 1)).take n) := by
  rw [List.getD_eq_getElem?_getD, ← List.head?_drop, ← List.tail_drop]
  cases f.drop k with
  | nil => simp [leNat]
  | cons b bs => rfl

theorem expectedLength_c (f : Frame) :
    expectedLength .c f = 4 + ((f.getD 2 0).toNat + 256 * (f.getD 3 0).toNat) := by
  simp only [expectedLength, leNat_take_drop_succ, List.take_zero, leNat, Nat.reduceAdd]
  omega

theorem expectedLength_v (f : Frame) :
    expectedLength .v f = 5 + ((f.getD 1 0).toNat + 256 * (f.getD 2 0).toNat + 65536 * (f.getD 3 0).toNat +
      16777216 * (f.getD 4 0).toNat) := by
  simp only [expectedLength, leNat_take_drop_succ, List.take_zero, leNat, Nat.reduceAdd]
  omega

namespace Machine

theorem reservedOpcode_iff {b : Byte} : ReservedOpcode b ↔ opcodeOfByte b = none := by
  unfold ReservedOpcode
  revert b
  decide

/-- A frame shorter than its head never has the length its field asks for. -/
theorem lt_or_ne_add_iff {n k x : Nat} : (n < k ∨ ¬ n = k + x) ↔ ¬ n = k + x := by omega

/-- A frame of a known opcode is malformed (R78) exactly where the decoder's length check fails. -/
theorem malformedFrame_iff {op : Opcode} {rest : Bytes} :
    MalformedFrame (op.byte :: rest) ↔
      (op.byte :: rest).length ≠ expectedLength op.format (op.byte :: rest) := by
  cases op with
  | hdrsz | gpflag | rdauth => simp [MalformedFrame, Opcode.byte, Opcode.format, expectedLength]
  | new =>
    rw [Opcode.format, expectedLength_c]
    simp [MalformedFrame, Opcode.byte, lt_or_ne_add_iff]
  | reset | decrypt | encReset | encrypt =>
    rw [Opcode.format, expectedLength_v]
    simp [MalformedFrame, Opcode.byte, lt_or_ne_add_iff]

theorem not_malformedFrame_of_decode {f : Frame} {i : Instr} (h : decode f = .ok i) : ¬ MalformedFrame f := by
  obtain ⟨op, rest, rfl, hlen, -⟩ := decode_ok_cases h
  exact fun hbad => malformedFrame_iff.mp hbad hlen

/-- Settles O6: what is not reserved has a row, and what is not malformed passes that row's length check. -/
theorem wellFormedFrameDecodes : Obligations.WellFormedFrameDecodes := by
  intro b more hform hres
  obtain ⟨op, hop⟩ := Option.ne_none_iff_exists'.mp (mt reservedOpcode_iff.mpr hres)
  obtain rfl := byte_of_opcodeOfByte hop
  have hlen := not_not.mp (mt malformedFrame_iff.mpr hform)
  exact ⟨_, decode_of_length hop hlen, congrArg Opcode.byte (opcode_assemble op _)⟩

/-- A command of the other role is answered `IllegalCommand` (R77). -/
theorem exec_of_not_legalFor {i : Instr} {s : State} (h : i.opcode.legalFor s.role = false) :
    exec i s = .next (respond .illegalCommand [] s) := by
  cases i with
  | new | hdrsz | gpflag | rdauth => cases h
  | reset | decrypt | encReset | encrypt => exact if_neg (of_decide_eq_false h)

/-- Every frame that carries no command legal for the unit's role gets one answer (R77, R78), and nothing else changes. -/
theorem step_of_no_legal_command {s : State} {f : Frame} {rest : List Event} (hin : s.inputs = .command f :: rest)
    (h : ∀ i, decode f = .ok i → i.opcode.legalFor s.role = false) :
    step s = .next { s with inputs := rest, outputs := s.outputs ++ [[0x07, 0, 0, 0, 0]] } := by
  rw [step_command hin]
  cases hdec : decode f with
  | error e => rw [performFrame, hdec]; rfl
  | ok i => rw [performFrame_of_decode hdec]; exact exec_of_not_legalFor (h i hdec)

/-- Settles O4: no malformed frame decodes. -/
theorem malformedFrameIsIllegal : Obligations.MalformedFrameIsIllegal := by
  intro s f rest hin hbad
  exact step_of_no_legal_command hin fun i hdec => absurd hbad (not_malformedFrame_of_decode hdec)

/-- Settles O5: a reserved opcode has no row, and the row of an opcode of the other role is not legal for the unit, whether
or not the frame's length is right. -/
theorem reservedOrOtherRoleIsIllegal : Obligations.ReservedOrOtherRoleIsIllegal := by
  constructor
  · intro s b more rest hin hres
    refine step_of_no_legal_command hin fun i hdec => ?_
    have hrow := opcodeOfByte_of_decode hdec
    rw [reservedOpcode_iff.mp hres] at hrow
    cases hrow
  · intro s b more rest hin hrole
    refine step_of_no_legal_command hin fun i hdec => ?_
    have hrow := opcodeOfByte_of_decode hdec
    obtain ⟨hrole, rfl | rfl⟩ | ⟨hrole, rfl | rfl⟩ := hrole <;>
      rw [hrole, ← Option.some.inj hrow] <;> rfl

end Machine

end Sys2Proof

/-! The frame placed as the next one (log 15) and the role it is placed in. -/

namespace Sys2Proof.Machine

theorem roleFor_of_legalFor {op : Opcode} {role : Role} (h : op.legalFor role = true) : roleFor op role = role :=
  if_pos h

/-- Every opcode is legal for one of the two roles at least. -/
theorem legalFor_roleFor (op : Opcode) (role : Role) : op.legalFor (roleFor op role) = true := by
  cases op <;> cases role <;> rfl

theorem roleForFrame_of_decode {f : Frame} {i : Instr} (h : decode f = .ok i) (role : Role) :
    roleForFrame f role = roleFor i.opcode role := by
  cases f with
  | nil => cases h
  | cons b more => simp only [roleForFrame, opcodeOfByte_of_decode h]

theorem decode_tableFrame {nbits w : Nat} {i : Instr} (h : decodeTableWord nbits w = some i) :
    decode (tableFrame nbits w) = .ok i := by
  unfold decodeTableWord at h
  split at h
  · next hdec => rw [hdec, Option.some.inj h]
  · cases h

/-- Settles O11: the placed frame is the oldest event and decodes to the word's command, whose opcode chose the role. -/
theorem placedWordRunsNext : Obligations.PlacedWordRunsNext := by
  intro s nbits w i h
  have hdec := decode_tableFrame h
  have hrole : (s.withFetchWord nbits w).role = roleFor i.opcode s.role := roleForFrame_of_decode hdec s.role
  refine ⟨stepRunsDecodedCommand _ _ _ i rfl hdec, ?_, ?_⟩
  · rw [hrole]
    exact legalFor_roleFor i.opcode s.role
  · intro hlegal
    rw [hrole, roleFor_of_legalFor hlegal]

end Sys2Proof.Machine

/-! The Parameter Table and the lengths derived from it, for the family 40_parameter_table. -/

namespace Sys2Proof.Machine

/-- The table has no other row (R101): a code with a row is one of the three. -/
theorem paramRow_eq_none {s : Byte} (h1 : s ≠ 1) (h2 : s ≠ 2) (h3 : s ≠ 3) : paramRow s = none := by
  refine Option.eq_none_iff_forall_ne_some.mpr fun row hrow => ?_
  rcases paramRow_cases hrow with ⟨hs, -⟩ | ⟨hs, -⟩ | ⟨hs, -⟩
  · exact h1 hs
  · exact h2 hs
  · exact h3 hs

/-- Settles O18: the three rows are computed, and every value of another code is read off a row it does not have. -/
theorem parameterTableValues : Obligations.ParameterTableValues := by
  intro s
  by_cases h1 : s = 1
  · subst h1; decide
  by_cases h2 : s = 2
  · subst h2; decide
  by_cases h3 : s = 3
  · subst h3; decide
  have hrow : paramRow s = none := paramRow_eq_none h1 h2 h3
  simp only [supported, bitsOf, keyLen, saltLen, hrow, h1, h2, h3, Option.map_none, Option.isSome_none, if_false,
    Bool.false_eq_true, or_self, and_self]

end Sys2Proof.Machine

/-! Construction and the queries of a constructed unit, for the family 41_config_and_query. -/

namespace Sys2Proof.Machine

/-! What NEW and GPFLAG answer in every state (R110, R112), and what a transform answers before a successful RESET (R175). -/

theorem exec_new (strength : Byte) (password : Bytes) (s : State) :
    exec (.new strength password) s = .next (respond .ok [] (construct strength password s)) := rfl

theorem exec_gpflag (s : State) : exec .gpflag s = .next (respond .ok (le 2 Config.gpFlag) s) := rfl

theorem whenReady_of_uninitialized {s : State} {k : Result} (hp : s.phase = .uninitialized) :
    whenReady s k = .next (respond .notReady [] s) := by
  simp [whenReady, hp]

theorem exec_transform_of_uninitialized {i : Instr} {cin : Bytes} {s : State} (hi : TransformsChunk i cin s)
    (hp : s.phase = .uninitialized) : exec i s = .next (respond .notReady [] s) := by
  rw [exec_transform hi, transformChunk, whenReady_of_uninitialized hp]

/-- A response with one data byte (R74). -/
theorem responseFrame_singleton (e : Status) (b : Byte) : responseFrame e [b] = [e.code, 1, 0, 0, 0, b] := by
  rw [responseFrame, List.length_singleton]
  rfl

/-- Settles O12: the frozen statement writes out the register writes of `construct` and the frame of an empty OK. -/
theorem newConstructs : Obligations.NewConstructs := exec_new

/-- Settles O13: NEW leaves the unit in phase Uninitialized, where the commands that use or hand out a key are refused. -/
theorem newDropsOldKeys : Obligations.NewDropsOldKeys := by
  intro strength password cin s t h
  have hphase : t.phase = .uninitialized := by
    rw [exec_new] at h
    cases h
    rfl
  exact ⟨exec_transform_of_uninitialized (.inl ⟨rfl, rfl⟩) hphase,
    exec_transform_of_uninitialized (.inr ⟨rfl, rfl⟩) hphase, exec_rdauth_of_uninitialized hphase⟩

/-- Settles O14: a code with a row of the Parameter Table is one of the three, and a code without a row is none of them. -/
theorem hdrszAnswersHeaderSize : Obligations.HdrszAnswersHeaderSize := by
  refine fun s => ⟨exec_hdrsz_of_unconfigured, fun hp st hst => ?_⟩
  cases hrow : paramRow st with
  | some row =>
    rw [exec_hdrsz_of_supported hp hst hrow, respond, responseFrame_singleton]
    obtain ⟨rfl, rfl⟩ | ⟨rfl, rfl⟩ | ⟨rfl, rfl⟩ := paramRow_cases hrow <;> rfl
  | none =>
    have h1 : st ≠ 1 := by rintro rfl; cases hrow
    have h2 : st ≠ 2 := by rintro rfl; cases hrow
    have h3 : st ≠ 3 := by rintro rfl; cases hrow
    rw [exec_hdrsz_of_unsupported hp hst hrow, respond, responseFrame_singleton, if_neg h1, if_neg h2, if_neg h3]
    rfl

/-- Settles O15: the flag word's two little-endian bytes, in a frame that no register enters. -/
theorem gpflagIsConstant : Obligations.GpflagIsConstant := exec_gpflag

end Sys2Proof.Machine

/-! Key derivation and password verification, for the family 42_reset. -/

namespace Sys2Proof.Machine

/-! The failures RESET and ENC_RESET share, by the first check that fails (R121, R122, R181). -/

section

variable {operand : Bytes} {len : StrengthRow → Nat} {s : State} {k : StrengthRow → Bytes → DerivedKeys → Result}
  {st : Byte}

theorem withDerivedKeys_of_unconfigured (hp : s.phase = .unconfigured) :
    withDerivedKeys operand len s k = .next (respond .notConfigured [] s) := if_pos hp

theorem withDerivedKeys_of_unsupported (hp : s.phase ≠ .unconfigured) (hst : s.strength = some st)
    (hrow : paramRow st = none) :
    withDerivedKeys operand len s k = .next (respond .unsupportedEncryption [st] (dropCipher s)) := by
  simp [withDerivedKeys, hp, hst, hrow]

theorem withDerivedKeys_of_length_ne {row : StrengthRow} (hp : s.phase ≠ .unconfigured) (hst : s.strength = some st)
    (hrow : paramRow st = some row) (hl : operand.length ≠ len row) :
    withDerivedKeys operand len s k = .next (respond .headerLength [] (dropCipher s)) := by
  simp [withDerivedKeys, hp, hst, hrow, hl]

end

/-- A strength code without a key length has no row of the Parameter Table (R101). -/
theorem paramRow_eq_none_of_keyLen {st : Byte} (h : keyLen st = none) : paramRow st = none :=
  Option.map_eq_none_iff.mp h

/-- A slice that reaches the end of its space is the rest of the space. -/
theorem memRead_to_end {space : Bytes} {off n : Nat} (h : space.length = off + n) : memRead space off n = space.drop off :=
  List.take_of_length_le (by rw [List.length_drop]; omega)

theorem exec_reset_of_decryptor {hdr : Bytes} {s : State} (hr : s.role = .decryptor) :
    exec (.reset hdr) s = withDerivedKeys hdr hdrLen s fun row _ keys =>
      if keys.verifier = memRead hdr row.saltBytes Config.verifierLen then answerOk [] (arm keys.encKey keys.authKey s)
      else failReset .badPassword [] s := whenRole_self hr

/-- RESET where its checks before the verifier pass, in the lengths of the Parameter Table: the last 2 derived bytes against
the last 2 bytes of the header decide between the armed cipher and `BadPassword` (R120 steps 3 to 6, R125, R132). -/
theorem exec_reset_of_derived {hdr password dk : Bytes} {s : State} {st : Byte} {kl sl : Nat}
    (hr : s.role = .decryptor) (hp : s.phase ≠ .unconfigured) (hf : s.primFails = false) (hpw : s.pw = some password)
    (hst : s.strength = some st) (hkl : keyLen st = some kl) (hsl : saltLen st = some sl) (hl : hdr.length = sl + 2)
    (hdk : dk = pbkdf2HmacSha1 s.prims password (hdr.take sl) 1000 (2 * kl + 2)) :
    exec (.reset hdr) s = .next (if dk.drop (2 * kl) = hdr.drop sl
      then respond .ok [] (arm (dk.take kl) ((dk.drop kl).take kl) s)
      else respond .badPassword [] (dropCipher s)) := by
  obtain ⟨row, hrow, rfl, rfl⟩ := paramRow_of_keyLen_saltLen hkl hsl
  obtain ⟨hok, hbad⟩ := exec_reset_verifies hr hp hst hrow hl hf hpw rfl
  rw [memRead_to_end hl, memRead, List.drop_zero, deriveKeys_eq, ← hdk] at hok hbad
  split
  · next hv => exact hok hv
  · next hv => exact hbad hv

/-- Settles O19: the salt and the verifier are the two parts of the header, and equal verifiers take the arming branch. -/
theorem resetArmsCipher : Obligations.ResetArmsCipher := by
  intro s st kl sl password salt supplied hr hp hf hpw hst hkl hsl hsalt hsup dk hv
  have hl : (salt ++ supplied).length = sl + 2 := by rw [List.length_append, hsalt, hsup]
  have hdk : dk = pbkdf2HmacSha1 s.prims password ((salt ++ supplied).take sl) 1000 (2 * kl + 2) := by
    rw [List.take_left' hsalt]
  rw [exec_reset_of_derived hr hp hf hpw hst hkl hsl hl hdk, List.drop_left' hsalt, if_pos hv]
  rfl

/-- Settles O20: each clause is the first check that fails, after those before it have passed. -/
theorem resetFailsInOrder : Obligations.ResetFailsInOrder := by
  intro s hdr hr
  refine ⟨fun hp => ?_, fun hp st hst => ⟨fun hkl => ?_, fun kl sl hkl hsl => ⟨fun hl => ?_, fun hl hf pw hpw hv => ?_⟩⟩⟩
  · exact (exec_reset_of_decryptor hr).trans (withDerivedKeys_of_unconfigured hp)
  · rw [exec_reset_of_decryptor hr, withDerivedKeys_of_unsupported hp hst (paramRow_eq_none_of_keyLen hkl), respond,
      responseFrame_singleton]
    rfl
  · obtain ⟨row, hrow, -, rfl⟩ := paramRow_of_keyLen_saltLen hkl hsl
    exact (exec_reset_of_decryptor hr).trans (withDerivedKeys_of_length_ne hp hst hrow hl)
  · rw [exec_reset_of_derived hr hp hf hpw hst hkl hsl hl rfl, if_neg hv]
    rfl

/-- Settles O21: of the two branches only the arming one leaves phase Ready. -/
theorem resetReadyIffVerifierMatches : Obligations.ResetReadyIffVerifierMatches := by
  intro s st kl sl password hdr hr hp hf hpw hst hkl hsl hl
  refine ⟨_, exec_reset_of_derived hr hp hf hpw hst hkl hsl hl rfl, ?_⟩
  split
  · next hv => exact iff_of_true rfl hv
  · next hv => exact iff_of_false nofun hv

/-! What the answer delivered tells about the registers (R127, R128). -/

/-- A command whose response is this one has answered with this status and data. -/
theorem answered_of_outputs {i : Instr} {s t : State} {e : Status} {d : Bytes} (h : exec i s = .next t)
    (ho : t.outputs = s.outputs ++ [responseFrame e d]) : ∃ u, Answered i s e d u ∧ t = respond e d u := by
  obtain ⟨e', d', u, ha, rfl⟩ := exec_answered h
  obtain ⟨-, -, -, -, houtputs⟩ := ha.registerEffect.boundary
  obtain ⟨rfl, rfl⟩ := (respond_outputs_eq_iff houtputs).mp ho
  exact ⟨u, ha, rfl⟩

theorem Answered.reset_badPassword {hdr d : Bytes} {s u : State} (h : Answered (.reset hdr) s .badPassword d u) :
    s.role = .decryptor ∧ u = dropCipher s := by
  cases h with
  | badPassword _ _ _ _ _ hr => exact ⟨hr, rfl⟩

/-- A RESET that answers `OK` has armed the cipher with keys derived from PW, STRENGTH and the header alone. -/
theorem Answered.reset_ok {hdr d : Bytes} {s u : State} (h : Answered (.reset hdr) s .ok d u) :
    ∃ st row pw keys, s.strength = some st ∧ paramRow st = some row ∧ s.pw = some pw ∧
      keys = deriveKeys s.prims pw (memRead hdr 0 row.saltBytes) row ∧ u = arm keys.encKey keys.authKey s := by
  cases h with
  | verified _ _ st row pw _ _ hst hrow _ _ hpw => exact ⟨st, row, pw, _, hst, hrow, hpw, rfl, rfl⟩
  | emptyChunk _ _ hi => cases family_of_transformsChunk hi
  | transformed _ _ _ _ _ hi => cases family_of_transformsChunk hi

/-- Settles O22: only a Decryptor answers `BadPassword`, and it leaves phase Uninitialized, where DECRYPT is refused. -/
theorem rejectedPasswordGivesNoPlaintext : Obligations.RejectedPasswordGivesNoPlaintext := by
  intro s t hdr cin h ho
  obtain ⟨u, ha, rfl⟩ := answered_of_outputs h ho
  obtain ⟨hr, rfl⟩ := ha.reset_badPassword
  exact ⟨rfl, rfl, rfl, exec_transform_of_uninitialized (.inl ⟨rfl, hr⟩) rfl⟩

/-- Settles O23: both runs arm the cipher with keys of the same arguments. -/
theorem resetForgetsEarlierEntries : Obligations.ResetForgetsEarlierEntries := by
  intro s s' t t' hdr hpw hstrength hprims h h' ho ho'
  obtain ⟨u, ha, rfl⟩ := answered_of_outputs h ho
  obtain ⟨u', ha', rfl⟩ := answered_of_outputs h' ho'
  obtain ⟨st, row, pw, keys, hst, hrow, hp, hkeys, rfl⟩ := ha.reset_ok
  obtain ⟨st', row', pw', keys', hst', hrow', hp', hkeys', rfl⟩ := ha'.reset_ok
  obtain rfl : st = st' := Option.some.inj (hst.symm.trans (hstrength.trans hst'))
  obtain rfl : row = row' := Option.some.inj (hrow.symm.trans hrow')
  obtain rfl : pw = pw' := Option.some.inj (hp.symm.trans (hpw.trans hp'))
  obtain rfl : keys = keys' := by rw [hkeys, hkeys', hprims]
  exact ⟨rfl, rfl, rfl, rfl, rfl, rfl⟩

theorem exec_rdauth_of_authKey {s : State} {ak : Bytes} (hp : s.phase = .ready) (hk : s.authKey = some ak) :
    exec .rdauth s = .next (respond .ok ak s) := by
  rw [exec_rdauth_of_ready hp, hk, readReg_some]

/-- Settles O16, one reading rule for each phase. -/
theorem rdauthAnswersAuthKey : Obligations.RdauthAnswersAuthKey :=
  fun _ => ⟨exec_rdauth_of_unconfigured, exec_rdauth_of_uninitialized, fun hp _ hk => exec_rdauth_of_authKey hp hk⟩

/-! The written-out primitives (R130, R131). -/

/-- The accumulating loop of R130 is the exclusive-or of the iterates of HMAC, in the order of their index. -/
theorem pbkdf2Iterate_eq_foldl (password : Bytes) (n : Nat) (u t : Bytes) :
    pbkdf2Iterate password n u t =
      (List.range n).foldl (fun acc j => xorBytes acc ((fun x => hmacSha1 password x)^[j + 1] u)) t := by
  induction n generalizing u t with
  | zero => rfl
  | succ n ih =>
    rw [pbkdf2Iterate, ih, List.range_succ_eq_map, List.foldl_cons, List.foldl_map]
    rfl

/-- Settles O48: block by block, the loop from `U_1` is the exclusive-or of `U_1` with the `c - 1` iterates after it. The
statement's bound on `c` is not needed: the model and the rule take the same `c - 1`. -/
theorem standardPbkdf2IsRuleR130 : Obligations.StandardPbkdf2IsRuleR130 := by
  intro password salt c len _ u1 u t
  have hblock (i : Nat) : pbkdf2Block password salt c i = t i := pbkdf2Iterate_eq_foldl password (c - 1) (u1 i) (u1 i)
  simp only [pbkdf2Standard, hblock]

@[simp] theorem hmacKey_length (k : Bytes) : (hmacKey k).length = 64 := by
  have hfits : (if k.length > 64 then sha1 k else k).length ≤ 64 := by
    split
    · simp
    · omega
  rw [hmacKey, List.length_append, List.length_replicate]
  omega

/-- Settles O49: the padded key of the rule is `hmacKey`. -/
theorem standardHmacIsRuleR131 : Obligations.StandardHmacIsRuleR131 :=
  ⟨fun k _ => ⟨hmacKey_length k, rfl⟩, rfl⟩

end Sys2Proof.Machine

/-! The counter block and the blocks of a chunk, for the family 43_decrypt (spec/43_decrypt.md R141, R143). -/

namespace Sys2Proof.Machine

theorem byte_ofNat_mod (v : Nat) : BitVec.ofNat 8 (v % 256) = BitVec.ofNat 8 v := by
  apply BitVec.eq_of_toNat_eq
  simp only [BitVec.toNat_ofNat]
  omega

theorem le_four (v : Nat) : le 4 v =
    [BitVec.ofNat 8 v, BitVec.ofNat 8 (v / 256), BitVec.ofNat 8 (v / 65536), BitVec.ofNat 8 (v / 16777216)] := by
  simp only [le, Nat.div_div_eq_div_mul, Nat.reduceMul]

/-- Settles O24. The bound on `n` is not needed: `LE_4` drops what does not fit, as the four remainders do. -/
theorem counterBlockBytes : Obligations.CounterBlockBytes := by
  intro n _
  simp only [byte_ofNat_mod]
  rw [ctrBlock, le_four]
  rfl

/-- A block that holds a value below `2^32` in its counter field belongs to one index only. -/
theorem succ_eq_of_ctrBlock_eq {n v : Nat} (hn : n ≤ 4294967294) (hv : v ≤ 4294967295)
    (h : ctrBlock n = le 4 v ++ List.replicate 12 0) : n + 1 = v :=
  le_injective (k := 4) (by omega) (by omega) (List.append_cancel_right h)

/-- Settles O25: the field value of index `n` is `n + 1`, that of index `m` is `m + 1`, that of sixteen zero bytes is 0. -/
theorem counterBlocksDiffer : Obligations.CounterBlocksDiffer := by
  intro n m hn hm
  constructor
  · intro h
    have hfield : n + 1 = m + 1 := succ_eq_of_ctrBlock_eq hn (by omega) h
    omega
  · intro h
    have hfield : n + 1 = 0 := succ_eq_of_ctrBlock_eq hn (by omega) h
    omega

/-- Block `i` of a chunk is what stands in its `i`-th 16 bytes. -/
theorem memRead_block (cin : Bytes) (i : Nat) :
    memRead cin (16 * i) (blockLen cin.length i) = (cin.drop (16 * i)).take 16 := by
  rw [memRead, blockLen, Config.block, ← List.length_drop, List.take_eq_take_iff]
  omega

/-- The first `n` blocks of a chunk are its first `16 n` bytes. -/
theorem flatten_blocks (cin : Bytes) (n : Nat) :
    ((List.range n).map fun i => memRead cin (16 * i) (blockLen cin.length i)).flatten = cin.take (16 * n) := by
  induction n with
  | zero => rfl
  | succ n ih =>
    rw [List.range_succ, List.map_append, List.flatten_append, ih, Nat.mul_succ, List.take_add]
    simp [memRead_block]

/-- A block within the step count is not empty and ends within the chunk. -/
theorem blockLen_bounds {len i : Nat} (h : i < stepCount len) :
    1 ≤ blockLen len i ∧ blockLen len i ≤ 16 ∧ 16 * i + blockLen len i ≤ len := by
  have hspec := stepCount_spec len
  simp only [blockLen, Config.block]
  omega

theorem blockLen_of_succ_lt {len i : Nat} (h : i + 1 < stepCount len) : blockLen len i = 16 := by
  have hspec := stepCount_spec len
  simp only [blockLen, Config.block]
  omega

theorem blockLen_last (len : Nat) :
    blockLen len (stepCount len - 1) = len - 16 * (stepCount len - 1) := by
  have hspec := stepCount_spec len
  simp only [blockLen, Config.block]
  omega

/-- Settles O26: the first `16 * steps` bytes are the whole chunk, since the steps cover it. -/
theorem chunkIsCutIntoBlocks : Obligations.ChunkIsCutIntoBlocks := by
  intro cin
  refine ⟨?_, fun i hi => ?_, fun _ => blockLen_last _⟩
  · rw [flatten_blocks, List.take_of_length_le (stepCount_spec cin.length).1]
  · obtain ⟨hpos, hle, hin⟩ := blockLen_bounds hi
    exact ⟨hpos, hle, memRead_length_of_le hin, blockLen_of_succ_lt⟩

end Sys2Proof.Machine

/-! The transform of one chunk and of several (spec/43_decrypt.md R140 to R151). -/

namespace Sys2Proof.Machine

/-- Byte `j` of the byte-wise form, in the primitive it comes from (R142, R147). -/
theorem streamXor_getElem? (p : Primitives) (key : Bytes) (c : Nat) {cin : Bytes} {j : Nat} (hj : j < cin.length) :
    (streamXor p key c cin)[j]? =
      some (cin[j] ^^^ (aesEnc p key (ctrBlock (c + j / 16))).getD (j % 16) 0) := by
  rw [List.getElem?_eq_getElem (by simpa using hj), streamXor_getElem]
  rfl

/-- A counter value within the limit fits the register CTR (R24). -/
theorem toNat_ctr {c : Nat} (h : c ≤ 4294967295) : (BitVec.ofNat 32 c).toNat = c :=
  (BitVec.toNat_ofNat c 32).trans (Nat.mod_eq_of_lt (by omega))

/-- `s` after a transform of `cin` that nothing stops: the output delivered and CTR moved on by the steps taken. -/
def afterTransform (key cin : Bytes) (s : State) : State :=
  respond .ok (streamXor s.prims key s.ctr.toNat cin)
    { s with ctr := BitVec.ofNat 32 (s.ctr.toNat + (cin.length + 15) / 16) }

theorem afterTransform_ctr {key cin : Bytes} {s : State} (hc : s.ctr.toNat + (cin.length + 15) / 16 ≤ 4294967295) :
    (afterTransform key cin s).ctr.toNat = s.ctr.toNat + (cin.length + 15) / 16 :=
  toNat_ctr hc

theorem afterTransform_outputs (key cin : Bytes) (s : State) :
    (afterTransform key cin s).outputs = s.outputs ++ [responseFrame .ok (streamXor s.prims key s.ctr.toNat cin)] := rfl

section

variable {i : Instr} {cin key : Bytes} {s : State}

theorem exec_transform_of_unconfigured (hi : TransformsChunk i cin s) (hp : s.phase = .unconfigured) :
    exec i s = .next (respond .notConfigured [] s) :=
  (exec_transform hi).trans (if_pos hp)

theorem exec_transform_of_overflow (hi : TransformsChunk i cin s) (hp : s.phase = .ready)
    (hc : s.ctr.toNat + (cin.length + 15) / 16 > 4294967295) :
    exec i s = .next (respond .counterOverflow [] s) :=
  (exec_transform hi).trans ((whenReady_of_ready hp).trans (if_pos hc))

/-- No step is taken, so the counter limit, which CTR never exceeds, is not met (R146). -/
theorem exec_transform_of_nil (hi : TransformsChunk i [] s) (hp : s.phase = .ready) :
    exec i s = .next (respond .ok [] s) := by
  have hlimit : ¬ s.ctr.toNat + stepCount 0 > Config.ctrMax := by
    have hlt := s.ctr.isLt
    simp only [stepCount_zero, Config.ctrMax]
    omega
  rw [exec_transform hi, transformChunk, whenReady_of_ready hp]
  exact (if_neg hlimit).trans (if_pos rfl)

/-- A transform below the counter limit, the primitives not failing. -/
theorem exec_transform_ok (hi : TransformsChunk i cin s) (hp : s.phase = .ready) (hk : s.key = some key)
    (hf : s.primFails = false) (hc : s.ctr.toNat + (cin.length + 15) / 16 ≤ 4294967295) :
    exec i s = .next (afterTransform key cin s) :=
  (exec_transform hi).trans (transformChunk_ok hp hk hf hc)

end

theorem runCommands_cons_of_next {i : Instr} {s t : State} (h : exec i s = .next t) (rest : List Instr) :
    runCommands (i :: rest) s = runCommands rest t := by
  rw [runCommands, h]

/-- Settles O27: the loop's output is the byte-wise form. -/
theorem transformOutputBytes : Obligations.TransformOutputBytes := by
  intro i s cin key hi hp hk hf hc
  exact ⟨_, _, exec_transform_ok hi hp hk hf hc, toNat_ctr hc, streamXor_length .., fun _ => streamXor_getElem? _ _ _⟩

/-- Settles O28: each clause is the first check that fails, after those before it have passed. -/
theorem transformFailsInOrder : Obligations.TransformFailsInOrder :=
  fun _ _ _ hi =>
    ⟨exec_transform_of_unconfigured hi, exec_transform_of_uninitialized hi, exec_transform_of_overflow hi⟩

/-- Settles O29: the model looks at the fault line only after it has found a step to take. -/
theorem emptyChunkChangesNothing : Obligations.EmptyChunkChangesNothing :=
  fun _ _ => exec_transform_of_nil

/-- The output has the length of the input, so the second transform takes the same steps, and each byte meets the same
keystream byte again. -/
theorem afterTransform_streamXor (key cin : Bytes) (s : State) :
    afterTransform key (streamXor s.prims key s.ctr.toNat cin) s =
      respond .ok cin { s with ctr := BitVec.ofNat 32 (s.ctr.toNat + (cin.length + 15) / 16) } := by
  rw [afterTransform, streamXor_involutive, streamXor_length]

/-- Settles O31: the second transform starts from the state in which the first one started. -/
theorem transformIsInvolution : Obligations.TransformIsInvolution := by
  intro i s cin key hi hp hk hf hc
  refine ⟨streamXor s.prims key s.ctr.toNat cin, afterTransform key cin s,
    afterTransform key (streamXor s.prims key s.ctr.toNat cin) s,
    exec_transform_ok hi hp hk hf hc, afterTransform_outputs .., fun j hj => ⟨?_, ?_⟩⟩
  · exact exec_transform_ok hj hp hk hf (by rwa [streamXor_length])
  · rw [afterTransform_streamXor]
    rfl

/-- Settles O32: the run over the chunks and the one command both give the byte-wise form of the whole. -/
theorem chunkBoundariesDoNotMatter : Obligations.ChunkBoundariesDoNotMatter := by
  intro s key chunks hr hp hk hf hc ha
  have hdecrypt (c : Bytes) : TransformsChunk (.decrypt c) c s := .inl ⟨rfl, hr⟩
  obtain ⟨outs, hlen, hflat, hrun⟩ := runCommands_transforms .decrypt key chunks s hdecrypt hp hk hf hc ha
  refine ⟨_, _, outs, hrun, exec_transform_ok (hdecrypt _) hp hk hf hc, rfl, hlen, ?_, rfl, toNat_ctr hc, rfl⟩
  rw [hflat, afterTransform_outputs]

/-- Settles O33: the second command starts at the counter the first one left, whatever part of its last block the first
one used. -/
theorem nextChunkStartsNewBlock : Obligations.NextChunkStartsNewBlock := by
  intro s key x y hr hp hk hf hc
  have hcx : s.ctr.toNat + (x.length + 15) / 16 ≤ 4294967295 := by omega
  have hctr : (afterTransform key x s).ctr.toNat = s.ctr.toNat + (x.length + 15) / 16 := afterTransform_ctr hcx
  have hcy : (afterTransform key x s).ctr.toNat + (y.length + 15) / 16 ≤ 4294967295 := by rwa [hctr]
  have hx : exec (.decrypt x) s = .next (afterTransform key x s) := exec_transform_ok (.inl ⟨rfl, hr⟩) hp hk hf hcx
  have hy : exec (.decrypt y) (afterTransform key x s) = .next (afterTransform key y (afterTransform key x s)) :=
    exec_transform_ok (.inl ⟨rfl, hr⟩) hp hk hf hcy
  refine ⟨afterTransform key y (afterTransform key x s), streamXor s.prims key s.ctr.toNat x,
    streamXor s.prims key (s.ctr.toNat + (x.length + 15) / 16) y, ?_, ?_, streamXor_length .., ?_,
    fun _ => streamXor_getElem? _ _ _⟩
  · rw [runCommands_cons_of_next hx, runCommands_cons_of_next hy, runCommands]
  · rw [afterTransform_outputs, afterTransform_outputs, hctr, List.append_assoc]
    rfl
  · rw [afterTransform_ctr hcy, hctr]

end Sys2Proof.Machine

/-! The Encryptor's commands and the round trip with a Decryptor, for the family 44_encryptor. -/

namespace Sys2Proof.Machine

/-! The shared transform does not read the role (R162). -/

/-- A result with this change made to its next state. -/
def mapNext (f : State → State) : Result → Result
  | .next s => .next (f s)
  | .fault r => .fault r
  | .refused r => .refused r

theorem mapNext_eq_next_iff {f : State → State} {r : Result} {t : State} :
    mapNext f r = .next t ↔ ∃ u, r = .next u ∧ f u = t := by
  cases r <;> simp [mapNext]

theorem mapNext_eq_fault_iff {f : State → State} {r : Result} {e : Fault} :
    mapNext f r = .fault e ↔ r = .fault e := by
  cases r <;> simp [mapNext]

/-- `s` as the state of a unit built in this role. -/
def withRole (role : Role) (s : State) : State := { s with role := role }

theorem mapNext_readReg {α : Type} (f : State → State) (r : OptReg) (v : Option α) (k : α → Result) :
    mapNext f (readReg r v k) = readReg r v fun x => mapNext f (k x) := by
  cases v <;> rfl

/-- The transform's guards and register reads are the same in either role, so each branch gives the same result. -/
theorem transformChunk_withRole (role : Role) (cin : Bytes) (s : State) :
    transformChunk cin (withRole role s) = mapNext (withRole role) (transformChunk cin s) := by
  simp only [transformChunk, whenReady, whenConfigured, apply_ite (mapNext (withRole role)), mapNext_readReg]
  rfl

/-- A result given one role answers a state of that role exactly where, given the other, it answers that state in the
other. -/
theorem mapNext_withRole_eq_next_iff (role role' : Role) {r : Result} {t : State} :
    mapNext (withRole role) r = .next t ↔
      t.role = role ∧ mapNext (withRole role') r = .next (withRole role' t) := by
  rw [mapNext_eq_next_iff, mapNext_eq_next_iff]
  constructor
  · rintro ⟨u, hu, rfl⟩
    exact ⟨rfl, u, hu, rfl⟩
  · rintro ⟨rfl, u, hu, heq⟩
    have hback : withRole t.role (withRole role' u) = withRole t.role (withRole role' t) := by rw [heq]
    exact ⟨u, hu, hback⟩

/-- Settles O30: both commands are the shared transform of `s`, given the role afterwards. -/
theorem encryptEqualsDecrypt : Obligations.EncryptEqualsDecrypt := by
  intro s cin
  have hdec : exec (.decrypt cin) { s with role := .decryptor } =
      mapNext (withRole .decryptor) (transformChunk cin s) :=
    (exec_transform (.inl ⟨rfl, rfl⟩)).trans (transformChunk_withRole ..)
  have henc : exec (.encrypt cin) { s with role := .encryptor } =
      mapNext (withRole .encryptor) (transformChunk cin s) :=
    (exec_transform (.inr ⟨rfl, rfl⟩)).trans (transformChunk_withRole ..)
  rw [hdec, henc]
  exact ⟨fun _ => mapNext_withRole_eq_next_iff .decryptor .encryptor,
    fun _ => mapNext_eq_fault_iff.trans mapNext_eq_fault_iff.symm⟩

/-! ENC_RESET, by the first check that fails, and where none does (R161, R181). -/

/-- Settles O34: the key, the authentication key and the verifier are the three regions of the derived bytes. -/
theorem encResetProducesHeader : Obligations.EncResetProducesHeader := by
  intro s st kl sl password salt hr hp hf hpw hst hkl hsl hsalt dk
  obtain ⟨row, hrow, rfl, rfl⟩ := paramRow_of_keyLen_saltLen hkl hsl
  exact exec_encReset_produces hr hp hst hrow hsalt hf hpw (deriveKeys_eq s.prims password salt row).symm

theorem paramRow_eq_none_of_saltLen {st : Byte} (h : saltLen st = none) : paramRow st = none :=
  Option.map_eq_none_iff.mp h

theorem exec_encReset_of_encryptor {salt : Bytes} {s : State} (hr : s.role = .encryptor) :
    exec (.encReset salt) s = withDerivedKeys salt (·.saltBytes) s fun row saltRead keys =>
      answerOk (memWrite (memWrite [] 0 saltRead) row.saltBytes keys.verifier) (arm keys.encKey keys.authKey s) :=
  whenRole_self hr

/-- Settles O35: the checks before the derivation are those of RESET, with the salt's length for the header's. -/
theorem encResetFailsInOrder : Obligations.EncResetFailsInOrder := by
  intro s salt hr
  rw [exec_encReset_of_encryptor hr]
  refine ⟨withDerivedKeys_of_unconfigured, fun hp st hst => ⟨fun hsl => ?_, fun sl hsl hl => ?_⟩⟩
  · rw [withDerivedKeys_of_unsupported hp hst (paramRow_eq_none_of_saltLen hsl), respond, responseFrame_singleton]
    rfl
  · obtain ⟨row, hrow, rfl⟩ := paramRow_of_saltLen hsl
    exact withDerivedKeys_of_length_ne hp hst hrow hl

/-! The round trip (R163). -/

/-- RESET of a salt and the verifier derived from it arms the cipher with the keys derived from it. -/
theorem exec_reset_of_producedHeader {salt password : Bytes} {s : State} {st : Byte} {row : StrengthRow}
    (hr : s.role = .decryptor) (hp : s.phase ≠ .unconfigured) (hst : s.strength = some st)
    (hrow : paramRow st = some row) (hsalt : salt.length = row.saltBytes) (hf : s.primFails = false)
    (hpw : s.pw = some password) {keys : DerivedKeys} (hkeys : keys = deriveKeys s.prims password salt row) :
    exec (.reset (salt ++ keys.verifier)) s = .next (respond .ok [] (arm keys.encKey keys.authKey s)) := by
  have hv : keys.verifier.length = 2 := hkeys ▸ (deriveKeys_lengths s.prims password salt row).2.2
  have hl : (salt ++ keys.verifier).length = row.saltBytes + 2 := by rw [List.length_append, hsalt, hv]
  have hread : memRead (salt ++ keys.verifier) 0 row.saltBytes = salt := List.take_left' hsalt
  refine (exec_reset_verifies hr hp hst hrow hl hf hpw (by rw [hread, hkeys])).1 ?_
  rw [memRead_to_end hl, List.drop_left' hsalt]

/-- DECRYPTs of the transform of `plain`, cut under AlignedChunks, give back `plain` (R148, R151). -/
theorem runCommands_decrypt_streamXor {key plain : Bytes} {zs : List Bytes} {s : State} (hr : s.role = .decryptor)
    (hp : s.phase = .ready) (hk : s.key = some key) (hf : s.primFails = false)
    (hc : s.ctr.toNat + (plain.length + 15) / 16 ≤ 4294967295) (ha : AlignedChunks zs)
    (hz : zs.flatten = streamXor s.prims key s.ctr.toNat plain) :
    ∃ (t : State) (ws : List Bytes), runCommands (zs.map .decrypt) s = .next t ∧
      t.outputs = s.outputs ++ ws.map (responseFrame .ok) ∧ ws.flatten = plain := by
  have hcz : s.ctr.toNat + stepCount zs.flatten.length ≤ Config.ctrMax := by rwa [hz, streamXor_length]
  have hdecrypt (c : Bytes) : TransformsChunk (.decrypt c) c s := .inl ⟨rfl, hr⟩
  obtain ⟨ws, -, hflat, hrun⟩ := runCommands_transforms .decrypt key zs s hdecrypt hp hk hf hcz ha
  exact ⟨_, ws, hrun, rfl, by rw [hflat, hz, streamXor_involutive]⟩

/-- `s` after NEW. -/
def afterNew (strength : Byte) (password : Bytes) (s : State) : State := respond .ok [] (construct strength password s)

/-- Settles O36: both units derive the same keys from PW and the header's salt, and start at counter 0, so the Decryptor's
transform undoes the Encryptor's. -/
theorem encryptorDecryptorRoundTrip : Obligations.EncryptorDecryptorRoundTrip := by
  intro e0 d0 e d st sl password salt xs hre hrd hprims hfe hfd hnewe hnewd hsl hsalt ha hc
  obtain rfl : afterNew st password e0 = e := Host.Outcome.next.inj hnewe
  obtain rfl : afterNew st password d0 = d := Host.Outcome.next.inj hnewd
  obtain ⟨row, hrow, rfl⟩ := paramRow_of_saltLen hsl
  obtain ⟨keys, hkeys⟩ : ∃ keys, keys = deriveKeys e0.prims password salt row := ⟨_, rfl⟩
  have hkeys' : keys = deriveKeys d0.prims password salt row := hprims ▸ hkeys
  have henc : exec (.encReset salt) (afterNew st password e0) = .next
      (respond .ok (salt ++ keys.verifier) (arm keys.encKey keys.authKey (afterNew st password e0))) :=
    exec_encReset_produces (s := afterNew st password e0) hre nofun rfl hrow hsalt hfe rfl hkeys
  have hdec : exec (.reset (salt ++ keys.verifier)) (afterNew st password d0) = .next
      (respond .ok [] (arm keys.encKey keys.authKey (afterNew st password d0))) :=
    exec_reset_of_producedHeader (s := afterNew st password d0) hrd nofun rfl hrow hsalt hfd rfl hkeys'
  have hlimit : 0 + (xs.flatten.length + 15) / 16 ≤ 4294967295 := by rwa [Nat.zero_add]
  obtain ⟨ys, -, hys, hrun⟩ := runCommands_transforms .encrypt keys.encKey xs
    (respond .ok (salt ++ keys.verifier) (arm keys.encKey keys.authKey (afterNew st password e0)))
    (fun _ => .inr ⟨rfl, hre⟩) rfl rfl hfe hlimit ha
  refine ⟨salt ++ keys.verifier, _, _, _, ys, henc, rfl, hrun, rfl, hdec, rfl, rfl, rfl, fun zs hzs haz => ?_⟩
  have hz : zs.flatten = streamXor d0.prims keys.encKey 0 xs.flatten := by
    rw [hzs, hys, ← hprims]
    rfl
  exact runCommands_decrypt_streamXor hrd rfl rfl hfd hlimit haz hz

end Sys2Proof.Machine

/-! The failures: what they leave and carry, and `CipherFault` (spec/60_exceptions.md R172, R179, R182, R183). -/

namespace Sys2Proof.Machine

/-! The registers and the data of an answer that is not `OK`, over the list of a command's possible answers. -/

section

variable {i : Instr} {s u : State} {e : Status} {d : Bytes}

theorem IsDerivation.eq_reset_or_encReset {operand : Bytes} {len : StrengthRow → Nat} (h : IsDerivation i operand len s) :
    ∃ x, i = .reset x ∨ i = .encReset x :=
  eq_reset_or_encReset_of_family (family_of_isDerivation h)

/-- Only RESET, ENC_RESET and a command whose primitives fail write registers when they fail, and they drop the cipher
(R182 item 1). -/
theorem Answered.failure_state (h : Answered i s e d u) (he : e ≠ .ok) :
    u = s ∨ (((∃ x, i = .reset x ∨ i = .encReset x) ∨ e = .cipherFault) ∧ u = dropCipher s) := by
  cases h with
  | constructed | headerSize | flagValue | authKeyRead | emptyChunk | transformed | verified | produced =>
    exact absurd rfl he
  | wrongRole | notConfigured | unsupportedQuery | notReady | counterOverflow => exact .inl rfl
  | transformFault | deriveFault => exact .inr ⟨.inr rfl, rfl⟩
  | unsupportedReset _ _ _ _ _ hi | headerLength _ _ _ _ _ _ hi => exact .inr ⟨.inl hi.eq_reset_or_encReset, rfl⟩
  | badPassword hdr => exact .inr ⟨.inl ⟨hdr, .inl rfl⟩, rfl⟩

/-- Only `UnsupportedEncryption` carries data, the stored strength code (R172). -/
theorem Answered.failure_data (h : Answered i s e d u) (he : e ≠ .ok) :
    d = [] ∨ (e = .unsupportedEncryption ∧ ∃ st, s.strength = some st ∧ d = [st]) := by
  cases h with
  | constructed | headerSize | flagValue | authKeyRead | emptyChunk | transformed | verified | produced =>
    exact absurd rfl he
  | wrongRole | notConfigured | notReady | counterOverflow | transformFault | headerLength | deriveFault | badPassword =>
    exact .inl rfl
  | unsupportedQuery _ st _ hst | unsupportedReset _ _ _ _ st _ _ hst => exact .inr ⟨rfl, st, hst, rfl⟩

theorem Answered.primFails_of_cipherFault (h : Answered i s .cipherFault d u) : s.primFails = true := by
  cases h with
  | transformFault _ _ _ _ _ hf => exact hf
  | deriveFault _ _ _ _ _ _ hf => exact hf

end

/-- Settles O38: apart from the response delivered, the next state is the one with the registers the answer writes. -/
theorem failuresArePrecise : Obligations.FailuresArePrecise := by
  intro i s t h
  obtain ⟨e, d, u, ha, rfl⟩ := exec_answered h
  obtain ⟨-, -, -, -, houtputs⟩ := ha.registerEffect.boundary
  refine ⟨e, d, (respond_outputs_eq_iff houtputs).mpr ⟨rfl, rfl⟩, fun he => ⟨?_, ha.failure_data he⟩⟩
  obtain rfl | ⟨hcause, rfl⟩ := ha.failure_state he
  · exact .inl rfl
  · exact .inr ⟨hcause, rfl⟩

/-- Settles O43: the response delivered tells the status, and the model answers `CipherFault` only on a set fault line. -/
theorem noCipherFaultWithSoundPrimitives : Obligations.NoCipherFaultWithSoundPrimitives := by
  intro i s t d hf h ho
  obtain ⟨u, ha, -⟩ := answered_of_outputs h ho
  exact Bool.false_ne_true (hf.symm.trans ha.primFails_of_cipherFault)

/-! The commands that call a failing primitive (log 9: after the checks that precede the first call). -/

theorem withDerivedKeys_of_primFails {operand : Bytes} {len : StrengthRow → Nat} {s : State}
    {k : StrengthRow → Bytes → DerivedKeys → Result} {st : Byte} {row : StrengthRow} (hp : s.phase ≠ .unconfigured)
    (hst : s.strength = some st) (hrow : paramRow st = some row) (hl : operand.length = len row)
    (hf : s.primFails = true) :
    withDerivedKeys operand len s k = .next (respond .cipherFault [] (dropCipher s)) := by
  simp [withDerivedKeys, hp, hst, hrow, hl, hf]

theorem exec_transform_of_primFails {i : Instr} {cin : Bytes} {s : State} (hi : TransformsChunk i cin s)
    (hp : s.phase = .ready) (hne : cin ≠ []) (hc : s.ctr.toNat + (cin.length + 15) / 16 ≤ 4294967295)
    (hf : s.primFails = true) : exec i s = .next (respond .cipherFault [] (dropCipher s)) := by
  have hlimit : ¬ s.ctr.toNat + stepCount cin.length > Config.ctrMax := not_lt.mpr hc
  have hsteps : stepCount cin.length ≠ 0 := fun h => hne (List.length_eq_zero_iff.mp (stepCount_eq_zero.mp h))
  rw [exec_transform hi, transformChunk, whenReady_of_ready hp]
  exact (if_neg hlimit).trans ((if_neg hsteps).trans (if_pos hf))

/-- Settles O44: the two derivations share their checks, the two transforms their body. -/
theorem failingPrimitiveIsFatal : Obligations.FailingPrimitiveIsFatal := by
  refine fun s hf => ⟨fun hdr st sl hr hp hst hsl hl => ?_, fun salt st sl hr hp hst hsl hl => ?_,
    fun i cin hi hp hne hc => exec_transform_of_primFails hi hp hne hc hf⟩
  · obtain ⟨row, hrow, rfl⟩ := paramRow_of_saltLen hsl
    exact (exec_reset_of_decryptor hr).trans (withDerivedKeys_of_primFails hp hst hrow hl hf)
  · obtain ⟨row, hrow, rfl⟩ := paramRow_of_saltLen hsl
    exact (exec_encReset_of_encryptor hr).trans (withDerivedKeys_of_primFails hp hst hrow hl hf)

end Sys2Proof.Machine

/-! The hardware reset event, for the family 70_reset_and_hazards (spec/70_reset_and_hazards.md R200). -/

namespace Sys2Proof.Machine

/-- The command a hardware reset abandons leaves nothing behind: its frame is not looked at. -/
theorem step_hardwareReset {s : State} {abandoned : Option Frame} {rest : List Event}
    (h : s.inputs = .hardwareReset abandoned :: rest) : step s = .next (hardReset { s with inputs := rest }) := by
  rw [step, serve, h]
  rfl

/-- Settles O8: the step is `hardReset` on the state without the event, which writes the six registers and nothing else
(R36, log 12). -/
theorem hardwareResetWritesRegisters : Obligations.HardwareResetWritesRegisters := by
  intro s abandoned rest hin
  rw [step_hardwareReset hin, hardReset]

end Sys2Proof.Machine
